-- ==== Sys2Proof/Word.lean ====
section
/-! DEFINITION. The bit patterns the FCU handles: bytes, 16-bit data words, 32-bit values (spec R6, R10). -/

namespace Sys2Proof

/-- A byte (R10). -/
abbrev Byte := BitVec 8

/-- A protocol data word, a field pattern or a sensor command: 16 bits (R6). -/
abbrev Word := BitVec 16

/-- A 32-bit operand or result. -/
abbrev Long := BitVec 32

end Sys2Proof
end

