-- ==== Sys2Proof/Config.lean ====
section
/-! DEFINITION. The parameters of a machine (spec R6) and its free value. Those the spec marks OPEN are constants
without a body, so a claim about the model holds for every machine R6 admits. -/

namespace Sys2Proof

/-- Which of the 120 even sizes 16, 18, ..., 254 the receive buffer has. OPEN, no body (entry 10). -/
opaque Config.rxMaxChoice : Fin 120

/-- `RX_MAX`, the capacity of the receive buffer: "an even number with 16 <= RX_MAX <= 254" (R6). -/
def Config.rxMax : Nat := 2 * Config.rxMaxChoice.val + 16

/-- Which request cap the transport imposes, if any. OPEN, no body (entry 10). -/
opaque Config.rawCapChoice : Option (Fin 381)

/-- `RAW_CAP`: "either `none` or a number 1 <= RAW_CAP <= 381" (R6). -/
def Config.rawCap : Option Nat := Config.rawCapChoice.map fun k => k.val + 1

/-- `BLOB_CRC3`: "function from three bytes to the checksum byte that follows a 3-byte blob chunk" (R6). OPEN, no
body (entry 10). -/
opaque Config.blobCrc3 : Byte → Byte → Byte → Byte

/-- The byte at an offset of the receive buffer that holds no specified byte ("unspecified at all times", R36). A
free value, no body (entry 2). -/
opaque Config.unspecifiedRxByte : Nat → Byte

/-- `TX_MAX`, the capacity of the transmit buffer (R6). -/
def Config.txMax : Nat := 20

end Sys2Proof
end

