-- ==== Sys2Proof/Machine/State.lean ====
section
/-! DEFINITION. The state of the FCU as plain data (spec R22 to R30, R33, R34), what the host hands it, and the
reasons the model can stop. -/

namespace Sys2Proof.Machine

/-- A byte space: cells of address and byte, addresses strictly rising. An address that is not listed holds no
specified byte ("unspecified", R36; entry 1). -/
abbrev Memory := List Host.Cell

/-- One step of a run: "a reset or an operation chosen by the host with its operands and, for READ, its raw list"
(R203). The model's own, for the host's side (entry 4). -/
inductive HostStep where
  /-- The host applies reset, between operations (R190, R191). -/
  | reset
  /-- The host presents the descriptor bytes of an operation, and the transport's raw byte list for it (R53, R79). -/
  | op (descriptor raw : List Byte)
  deriving DecidableEq, Repr

/-- The machine. The first seven fields are the spec's whole architectural state (R30); the next three are the
outputs of the most recent operation (R33); the last two are what the host hands the FCU (R32: inputs, not the
spec's state). -/
structure State where
  /-- `TXBUF`, indices 0 to 19 (R22). -/
  txbuf : Memory
  /-- `TX_LEN`, the number of valid bytes in `TXBUF` (R23). -/
  txLen : BitVec 5
  /-- `RXBUF`, indices 0 to `RX_MAX`-1 (R24). -/
  rxbuf : Memory
  /-- `RX_LEN`, the number of valid data bytes in `RXBUF` (R25). -/
  rxLen : BitVec 8
  /-- `RX_VALID` (R26). -/
  rxValid : Bool
  /-- `STATUS`, the code of the outcome of the most recent operation (R27). -/
  status : BitVec 4
  /-- `FAULT`, sticky (R28). -/
  fault : Bool
  /-- Result output `res[31:0]`; `none` when not driven (R33, U25; entry 3). -/
  res : Option Long
  /-- Result output `res_k[1:0]`; `none` when not driven (R33, R157, U25; entry 3). -/
  resK : Option (BitVec 2)
  /-- The bytes the most recent operation put on the transmit output, in order; none unless it was a BUILD (R33,
  R118; entry 3). -/
  txOut : List Byte
  /-- The raw byte list handed over with the operation now performed, from its front (R50 (3), R53; entry 4). -/
  raw : List Byte
  /-- The steps of the run that are still to come, the next one first (R203; entry 4). -/
  pending : List HostStep
  deriving DecidableEq, Repr

/-- Why the model stops. The faults of the spec (R174) are no stops: they are next states (R176; entry 9). -/
inductive Fault where
  /-- Raised by `step` alone, when the bytes the host presents end before the descriptor's length is complete. The
  FCU "waits" (R89) and nothing the model holds can complete them: U26 calls it `stuck`. Safe: the model stops
  where the hardware does nothing (entry 6). -/
  | descriptorIncomplete
  deriving DecidableEq, Repr

/-- Why an instruction has no meaning. -/
inductive Refusal where
  /-- For an arm of `exec` that has no meaning yet. No arm answers it: every operation has its meaning. Safe. -/
  | notModelled (mnemonic : String)
  deriving DecidableEq, Repr

/-- The state after reset (R34, R190): lengths, flags and STATUS zero, no byte of either buffer specified, no
output driven (entry 13). -/
def State.reset : State where
  txbuf := []
  txLen := 0#5
  rxbuf := []
  rxLen := 0#8
  rxValid := false
  status := 0#4
  fault := false
  res := none
  resK := none
  txOut := []
  raw := []
  pending := []

end Sys2Proof.Machine
end

