-- ==== Sys2Proof/Machine/Flags.lean ====
section
/-! DEFINITION. The outcomes of an operation and their STATUS codes (spec R170, R171, R174). -/

namespace Sys2Proof.Machine

/-- A result: "an answer the source defines" (R171). -/
inductive Result where
  /-- The operation did what its rule says. -/
  | ok
  /-- READ met a group whose checksum byte is not that of its two data bytes (R172). -/
  | checksumMismatch
  /-- READ collected a non-zero length different from `n` (R173). -/
  | lengthMismatch
  /-- READ collected no data byte (R173). -/
  | noData
  deriving DecidableEq, Repr

/-- A fault of the FCU, with the `info` of its `raise`, which is stored in no register (R174, R176; entry 11). -/
inductive FcuFault where
  /-- Reserved operation code, or reserved operand bits not zero. -/
  | illegalOp
  /-- READ with `n` > `RX_MAX`. -/
  | badOperand (n : Byte)
  /-- A decode with `off + W > RX_LEN`. -/
  | offsetOutOfRange (off : Byte)
  /-- A decode while `RX_VALID` = 0. -/
  | bufferInvalid
  deriving DecidableEq, Repr

/-- STATUS code of a result (R170). -/
def resultCode : Result → BitVec 4
  | .ok => 0#4
  | .checksumMismatch => 1#4
  | .lengthMismatch => 2#4
  | .noData => 3#4

/-- STATUS code of a fault (R170). -/
def faultCode : FcuFault → BitVec 4
  | .illegalOp => 8#4
  | .badOperand _ => 9#4
  | .offsetOutOfRange _ => 10#4
  | .bufferInvalid => 11#4

/-- "Codes 4 to 7 and 12 to 15 are never written" (R170): the codes an operation can leave in STATUS. -/
def legalStatus (c : BitVec 4) : Bool :=
  match c.toNat with
  | 0 | 1 | 2 | 3 | 8 | 9 | 10 | 11 => true
  | _ => false

end Sys2Proof.Machine
end

