-- ==== Sys2Proof/Syntax.lean ====
section
/-! DEFINITION. The sixteen operations of the FCU with the operands of their descriptors (spec R80, R81, R85). -/

namespace Sys2Proof

/-- One constructor per row of the operation map R85; the operands are those of the row's format (R80), at the
widths R81 gives. `fl` and `ks` are whole bytes: their reserved bits (R84) are checked by the operation (R87). -/
inductive Instr where
  /-- CRC8: checksum of a data word (R102). -/
  | crc8 (w : Word)
  /-- CRCCHK: compares the checksum of a data word with a byte (R104). -/
  | crcchk (w : Word) (c : Byte)
  /-- BUILD.NONE: a frame with no payload (R111). -/
  | buildNone (cmd : Word)
  /-- BUILD.S16: one 16-bit field (R112). -/
  | buildS16 (cmd v : Word)
  /-- BUILD.S32: a 32-bit scalar as two fields (R113). -/
  | buildS32 (cmd : Word) (v : Long)
  /-- BUILD.TCOMP: three fields (R114). -/
  | buildTcomp (cmd f0 f1 f2 : Word)
  /-- BUILD.TUNE: six fields (R115). -/
  | buildTune (cmd f0 f1 f2 f3 f4 f5 : Word)
  /-- BUILD.BLOB: eight opaque bytes (R117). -/
  | buildBlob (cmd : Word) (b0 b1 b2 b3 b4 b5 b6 b7 : Byte)
  /-- REQLEN: raw byte count to request for `n` data bytes (R131). -/
  | reqlen (n : Byte)
  /-- READ: validate and compact a raw byte list (R133, R134). -/
  | read (n fl : Byte)
  /-- DEC.U16: unsigned 16-bit field (R151). -/
  | decU16 (off : Byte)
  /-- DEC.I16: signed 16-bit field (R152). -/
  | decI16 (off : Byte)
  /-- DEC.U32: unsigned 32-bit field (R153). -/
  | decU32 (off : Byte)
  /-- SDEC.U16: unsigned 16-bit field with a scale (R159). -/
  | sdecU16 (off ks : Byte)
  /-- SDEC.I16: signed 16-bit field with a scale (R160). -/
  | sdecI16 (off ks : Byte)
  /-- SDEC.U32: unsigned 32-bit field with a scale (R161). -/
  | sdecU32 (off ks : Byte)
  deriving DecidableEq, Repr

end Sys2Proof
end

