-- ==== Sys2Proof/WellFormed.lean ====
section
/-! DEFINITION. Which operations have all their reserved operand bits zero (spec R84). -/

namespace Sys2Proof

/-- Reserved operand bits are zero: `fl[7:1]` of READ and `ks[7:2]` of SDEC.* "are reserved and must be 0" (R84).
No other operand has an illegal value (R88, R119). An operation that is not well formed still decodes, and
performing it raises IllegalOp (R87). -/
def Instr.wf : Instr → Bool
  | .crc8 _ => true
  | .crcchk _ _ => true
  | .buildNone _ => true
  | .buildS16 _ _ => true
  | .buildS32 _ _ => true
  | .buildTcomp _ _ _ _ => true
  | .buildTune _ _ _ _ _ _ _ => true
  | .buildBlob _ _ _ _ _ _ _ _ _ => true
  | .reqlen _ => true
  | .read _ fl => fl &&& 0xFE#8 == 0#8
  | .decU16 _ => true
  | .decI16 _ => true
  | .decU32 _ => true
  | .sdecU16 _ ks => ks &&& 0xFC#8 == 0#8
  | .sdecI16 _ ks => ks &&& 0xFC#8 == 0#8
  | .sdecU32 _ ks => ks &&& 0xFC#8 == 0#8

end Sys2Proof
end

