-- ==== Sys2Proof/Decode.lean ====
section
/-! DEFINITION. Operation descriptors: decoding, total on any bytes (spec R79 to R89), the encoder, and the opcode
table's numbering of a descriptor's bits. -/

namespace Sys2Proof

/-- What the front of a descriptor byte string is. -/
inductive Decoded where
  /-- An operation, and the bytes after its descriptor. -/
  | instr (i : Instr) (rest : List Byte)
  /-- A reserved operation code, one byte long, and the bytes after it: IllegalOp (R86). -/
  | reserved (opc : Byte) (rest : List Byte)
  /-- The bytes end before the descriptor is complete (R89). -/
  | incomplete
  deriving DecidableEq, Repr

/-- Descriptor length `L` by operation code; 1 for a reserved code (R85, R86, R89). -/
def descriptorLength (opc : Byte) : Nat :=
  match opc.toNat with
  | 0x01 => 3
  | 0x02 => 4
  | 0x10 => 3
  | 0x11 => 5
  | 0x12 => 7
  | 0x13 => 9
  | 0x16 => 15
  | 0x18 => 11
  | 0x20 => 2
  | 0x21 => 3
  | 0x30 => 2
  | 0x31 => 2
  | 0x32 => 2
  | 0x34 => 3
  | 0x35 => 3
  | 0x36 => 3
  | _ => 1

/-- Format W: `w[15:8], w[7:0]` (R80). -/
def decodeW (mk : Word → Instr) : List Byte → Decoded
  | wh :: wl :: rest => .instr (mk (wh ++ wl)) rest
  | _ => .incomplete

/-- Format WC: `w[15:8], w[7:0], c` (R80). -/
def decodeWC (mk : Word → Byte → Instr) : List Byte → Decoded
  | wh :: wl :: c :: rest => .instr (mk (wh ++ wl) c) rest
  | _ => .incomplete

/-- Format B0: `cmd[15:8], cmd[7:0]` (R80). -/
def decodeB0 (mk : Word → Instr) : List Byte → Decoded
  | ch :: cl :: rest => .instr (mk (ch ++ cl)) rest
  | _ => .incomplete

/-- Format B1: the command, then `v[15:8], v[7:0]` (R80). -/
def decodeB1 (mk : Word → Word → Instr) : List Byte → Decoded
  | ch :: cl :: vh :: vl :: rest => .instr (mk (ch ++ cl) (vh ++ vl)) rest
  | _ => .incomplete

/-- Format B2: the command, then the four bytes of `v`, most significant first (R80, R81). -/
def decodeB2 (mk : Word → Long → Instr) : List Byte → Decoded
  | ch :: cl :: v3 :: v2 :: v1 :: v0 :: rest => .instr (mk (ch ++ cl) (v3 ++ v2 ++ v1 ++ v0)) rest
  | _ => .incomplete

/-- Format B3: the command, then three fields, each high byte first (R80). -/
def decodeB3 (mk : Word → Word → Word → Word → Instr) : List Byte → Decoded
  | ch :: cl :: h0 :: l0 :: h1 :: l1 :: h2 :: l2 :: rest =>
    .instr (mk (ch ++ cl) (h0 ++ l0) (h1 ++ l1) (h2 ++ l2)) rest
  | _ => .incomplete

/-- Format B6: the command, then six fields, each high byte first (R80). -/
def decodeB6 (mk : Word → Word → Word → Word → Word → Word → Word → Instr) : List Byte → Decoded
  | ch :: cl :: h0 :: l0 :: h1 :: l1 :: h2 :: l2 :: h3 :: l3 :: h4 :: l4 :: h5 :: l5 :: rest =>
    .instr (mk (ch ++ cl) (h0 ++ l0) (h1 ++ l1) (h2 ++ l2) (h3 ++ l3) (h4 ++ l4) (h5 ++ l5)) rest
  | _ => .incomplete

/-- Format BB: the command, then `b0` to `b7` (R80). -/
def decodeBB (mk : Word → Byte → Byte → Byte → Byte → Byte → Byte → Byte → Byte → Instr) : List Byte → Decoded
  | ch :: cl :: b0 :: b1 :: b2 :: b3 :: b4 :: b5 :: b6 :: b7 :: rest =>
    .instr (mk (ch ++ cl) b0 b1 b2 b3 b4 b5 b6 b7) rest
  | _ => .incomplete

/-- Format N: `n` (R80). -/
def decodeN (mk : Byte → Instr) : List Byte → Decoded
  | n :: rest => .instr (mk n) rest
  | _ => .incomplete

/-- Format NZ: `n, fl` (R80). -/
def decodeNZ (mk : Byte → Byte → Instr) : List Byte → Decoded
  | n :: fl :: rest => .instr (mk n fl) rest
  | _ => .incomplete

/-- Format O: `off` (R80). -/
def decodeO (mk : Byte → Instr) : List Byte → Decoded
  | off :: rest => .instr (mk off) rest
  | _ => .incomplete

/-- Format OK: `off, ks` (R80). -/
def decodeOK (mk : Byte → Byte → Instr) : List Byte → Decoded
  | off :: ks :: rest => .instr (mk off ks) rest
  | _ => .incomplete

/-- "A decoder reads byte 0, looks up L in rule R85 (1 for a reserved value), and takes the next L-1 bytes as
operands" (R89); the operation map is R85's. -/
def decode : List Byte → Decoded
  | [] => .incomplete
  | opc :: ops =>
    match opc.toNat with
    | 0x01 => decodeW .crc8 ops
    | 0x02 => decodeWC .crcchk ops
    | 0x10 => decodeB0 .buildNone ops
    | 0x11 => decodeB1 .buildS16 ops
    | 0x12 => decodeB2 .buildS32 ops
    | 0x13 => decodeB3 .buildTcomp ops
    | 0x16 => decodeB6 .buildTune ops
    | 0x18 => decodeBB .buildBlob ops
    | 0x20 => decodeN .reqlen ops
    | 0x21 => decodeNZ .read ops
    | 0x30 => decodeO .decU16 ops
    | 0x31 => decodeO .decI16 ops
    | 0x32 => decodeO .decU32 ops
    | 0x34 => decodeOK .sdecU16 ops
    | 0x35 => decodeOK .sdecI16 ops
    | 0x36 => decodeOK .sdecU32 ops
    | _ => .reserved opc ops

/-- The two bytes of a 16-bit value, most significant first (R54, R81). -/
def beBytes16 (v : Word) : List Byte := [v.extractLsb' 8 8, v.extractLsb' 0 8]

/-- The four bytes of a 32-bit value, most significant first (R54, R81). -/
def beBytes32 (v : Long) : List Byte :=
  [v.extractLsb' 24 8, v.extractLsb' 16 8, v.extractLsb' 8 8, v.extractLsb' 0 8]

/-- The operation code of an operation (R85). -/
def opcode : Instr → Byte
  | .crc8 _ => 0x01#8
  | .crcchk _ _ => 0x02#8
  | .buildNone _ => 0x10#8
  | .buildS16 _ _ => 0x11#8
  | .buildS32 _ _ => 0x12#8
  | .buildTcomp _ _ _ _ => 0x13#8
  | .buildTune _ _ _ _ _ _ _ => 0x16#8
  | .buildBlob _ _ _ _ _ _ _ _ _ => 0x18#8
  | .reqlen _ => 0x20#8
  | .read _ _ => 0x21#8
  | .decU16 _ => 0x30#8
  | .decI16 _ => 0x31#8
  | .decU32 _ => 0x32#8
  | .sdecU16 _ _ => 0x34#8
  | .sdecI16 _ _ => 0x35#8
  | .sdecU32 _ _ => 0x36#8

/-- The operand bytes of an operation, in the order of its format (R80). -/
def operandBytes : Instr → List Byte
  | .crc8 w => beBytes16 w
  | .crcchk w c => beBytes16 w ++ [c]
  | .buildNone cmd => beBytes16 cmd
  | .buildS16 cmd v => beBytes16 cmd ++ beBytes16 v
  | .buildS32 cmd v => beBytes16 cmd ++ beBytes32 v
  | .buildTcomp cmd f0 f1 f2 => beBytes16 cmd ++ beBytes16 f0 ++ beBytes16 f1 ++ beBytes16 f2
  | .buildTune cmd f0 f1 f2 f3 f4 f5 =>
    beBytes16 cmd ++ beBytes16 f0 ++ beBytes16 f1 ++ beBytes16 f2 ++ beBytes16 f3 ++ beBytes16 f4 ++ beBytes16 f5
  | .buildBlob cmd b0 b1 b2 b3 b4 b5 b6 b7 => beBytes16 cmd ++ [b0, b1, b2, b3, b4, b5, b6, b7]
  | .reqlen n => [n]
  | .read n fl => [n, fl]
  | .decU16 off => [off]
  | .decI16 off => [off]
  | .decU32 off => [off]
  | .sdecU16 off ks => [off, ks]
  | .sdecI16 off ks => [off, ks]
  | .sdecU32 off ks => [off, ks]

/-- The descriptor of an operation: "Byte 0 is the operation code `OPC`. The operand bytes follow" (R79). -/
def encode (i : Instr) : List Byte := opcode i :: operandBytes i

/-- The `k` bytes of the number `w`, most significant first: "`match` and `mask` values in `opcode_table.json` are
L-byte big-endian numbers" (R79; entry 8). -/
def bigEndianBytes : Nat → Nat → List Byte
  | 0, _ => []
  | k + 1, w => BitVec.ofNat 8 (w / 256 ^ k) :: bigEndianBytes k w

/-- Zero bytes appended up to the descriptor length that byte 0 fixes; a whole descriptor is left as it is. -/
def padDescriptor (bs : List Byte) : List Byte :=
  match bs with
  | [] => []
  | opc :: _ => bs ++ List.replicate (descriptorLength opc - bs.length) 0#8

/-- The descriptor bytes of a table word of `nbits` bits: byte 0 holds the most significant bits (R79; entry 8). -/
def tableBytes (nbits w : Nat) : List Byte := padDescriptor (bigEndianBytes (nbits / 8) w)

/-- The operation the decoder reads from a table word, if it reads one. -/
def decodeTableWord (nbits w : Nat) : Option Instr :=
  match decode (tableBytes nbits w) with
  | .instr i _ => some i
  | .reserved _ _ => none
  | .incomplete => none

end Sys2Proof
end

