-- ==== Sys2Proof/Machine/Operands.lean ====
section
/-! DEFINITION. Operand fields and the forms results take: reserved bits, the stop flag, the scale selector, the
widening of results and the exact value of a scaled decode (spec R11, R84, R157, R158). -/

namespace Sys2Proof.Machine

/-- The more significant byte `v[15:8]` of a 16-bit value. -/
def hiByte (v : Word) : Byte := v.extractLsb' 8 8

/-- The less significant byte `v[7:0]` of a 16-bit value. -/
def loByte (v : Word) : Byte := v.extractLsb' 0 8

/-- The fields of the 32-bit scalar: "field 0 = v[31:16], field 1 = v[15:0], high word first" (R82). -/
def scalarFields (v : Long) : List Word := [v.extractLsb' 16 16, v.extractLsb' 0 16]

/-- `Z`, bit 0 of the flags byte of READ: stop on a zero word (R84). -/
def stopFlag (fl : Byte) : Bool := fl.getLsbD 0

/-- Some reserved bit `fl[7:1]` of READ's flags byte is not 0 (R84, R87). -/
def readReserved (fl : Byte) : Bool := fl &&& 0xFE#8 != 0#8

/-- The scale selector `ks[1:0]` (R84). -/
def scaleSelector (ks : Byte) : BitVec 2 := ks.extractLsb' 0 2

/-- Some reserved bit `ks[7:2]` of an SDEC's selector byte is not 0 (R84, R87). -/
def scaleReserved (ks : Byte) : Bool := ks &&& 0xFC#8 != 0#8

/-- "The scale constants are exactly 10, 100, 200 and 1000, selected by `ks[1:0]` = 0, 1, 2, 3 in that order" (R158). -/
def scaleConstant (k : BitVec 2) : Nat :=
  match k.toNat with
  | 0 => 10
  | 1 => 100
  | 2 => 200
  | _ => 1000

/-- `zext_32` of a 16-bit value (R11). -/
def zext32 (v : Word) : Long := v.setWidth 32

/-- `sext_32` of a 16-bit value (R11). -/
def sext32 (v : Word) : Long := v.signExtend 32

/-- `zext_32` of a byte (R11). -/
def zextByte (b : Byte) : Long := b.setWidth 32

/-- The exact value of SDEC.U16 and SDEC.U32: the unsigned integer on `res` over the selected constant, an exact
rational, delivered as the pair of `res` and `res_k` (R157; entry 15). -/
def scaledUnsigned (r : Long) (k : BitVec 2) : ℚ := (r.toNat : ℚ) / (scaleConstant k : ℚ)

/-- The exact value of SDEC.I16: the signed integer on `res` over the selected constant (R157, R160; entry 15). -/
def scaledSigned (r : Long) (k : BitVec 2) : ℚ := (r.toInt : ℚ) / (scaleConstant k : ℚ)

end Sys2Proof.Machine
end

