-- ==== Sys2Proof/Machine/Ops.lean ====
section
/-! DEFINITION. The shared operations: the byte spaces, reading a field of the receive buffer, ending an operation
with a result, taking a fault, reset, and accepting what the host presents. -/

namespace Sys2Proof.Machine

/-- All addresses of the cells are above `lo`, and they rise strictly. -/
def Memory.wfAbove : Nat → Memory → Bool
  | _, [] => true
  | lo, c :: m => decide (lo < c.1) && Memory.wfAbove c.1 m

/-- The canonical form of a byte space: addresses strictly rising (entry 1). -/
def Memory.wf : Memory → Bool
  | [] => true
  | c :: m => Memory.wfAbove c.1 m

/-- The byte at an address; `none` where no byte is specified (R36). -/
def Memory.read : Memory → Nat → Option Byte
  | [], _ => none
  | c :: m, a => if c.1 = a then some c.2 else Memory.read m a

/-- Writes one byte. -/
def Memory.write (a : Nat) (b : Byte) : Memory → Memory
  | [] => [(a, b)]
  | c :: m => if a < c.1 then (a, b) :: c :: m else if a = c.1 then (a, b) :: m else c :: Memory.write a b m

/-- Writes bytes at an address and those after it, the first byte at the lowest (`MemWrite`, R12, of the bytes of a
value most significant first). -/
def Memory.store : Nat → List Byte → Memory → Memory
  | _, [], m => m
  | a, b :: bs, m => Memory.store (a + 1) bs (Memory.write a b m)

/-- Leaves the bytes at an address and above without a specified value (R36, R118). -/
def Memory.forgetFrom (a : Nat) (m : Memory) : Memory := m.filter fun c => decide (c.1 < a)

/-- The byte of `RXBUF` that a decode sees at an offset. One that holds no specified byte is a free value; no state
that satisfies the invariants R35 lets a decode see one (entry 2). -/
def rxByte (s : State) (a : Nat) : Byte := (Memory.read s.rxbuf a).getD (Config.unspecifiedRxByte a)

/-- `MemRead(a, 2)`: the byte at the lowest index most significant (R12, R54). -/
def memRead2 (s : State) (a : Nat) : Word := rxByte s a ++ rxByte s (a + 1)

/-- `MemRead(a, 4)` (R12, R54). -/
def memRead4 (s : State) (a : Nat) : Long :=
  rxByte s a ++ rxByte s (a + 1) ++ rxByte s (a + 2) ++ rxByte s (a + 3)

/-- `raise`: fault entry, exactly R176: STATUS takes the fault's code and FAULT is set, buffers, lengths and RX_VALID
are kept, and no result is delivered. There is no return from it (R178, R183). -/
def raise (f : FcuFault) (s : State) : State :=
  { s with status := faultCode f, fault := true, res := none, resK := none, txOut := [] }

/-- `return`: the operation ends with the result's code in STATUS (R13) and drives the result output (R33); the
transmit output carries nothing. -/
def finish (r : Result) (res : Option Long) (resK : Option (BitVec 2)) (s : State) : State :=
  { s with status := resultCode r, res := res, resK := resK, txOut := [] }

/-- What every BUILD does with its frame (R118): writes it to `TXBUF` from index 0, sets TX_LEN, leaves the bytes
above unspecified, returns Ok and puts the frame on the transmit output. -/
def loadFrame (frame : List Byte) (s : State) : State :=
  { s with
    txbuf := Memory.forgetFrom frame.length (Memory.store 0 frame s.txbuf)
    txLen := BitVec.ofNat 5 frame.length
    status := resultCode .ok
    res := none
    resK := none
    txOut := frame }

/-- The checks common to the decodes, in order (R150 (2) and (3)): `width` bytes at `off`, the sum formed without
wrap-around. -/
def decodeFault (width : Nat) (off : Byte) (s : State) : Option FcuFault :=
  if s.rxValid = false then some .bufferInvalid
  else if s.rxLen.toNat < off.toNat + width then some (.offsetOutOfRange off)
  else none

/-- Reset (R190, R34), as a step of the run: what is still to come of the run stays the host's. -/
def applyReset (later : List HostStep) : State := { State.reset with pending := later }

/-- What the host still presents after the FCU has consumed one descriptor: bytes left over are the next descriptor's,
with an empty raw list (entry 7). -/
def presentRest : List Byte → List HostStep → List HostStep
  | [], later => later
  | b :: left, later => .op (b :: left) [] :: later

/-- The FCU has consumed one descriptor: the operation runs with the raw list handed over for it. -/
def accept (left raw : List Byte) (later : List HostStep) (s : State) : State :=
  { s with raw := raw, pending := presentRest left later }

end Sys2Proof.Machine
end

