-- ==== Sys2Proof/Machine/Checksum.lean ====
section
/-! DEFINITION. The checksum function and the operations CRC8 and CRCCHK (spec R100 to R107). -/

namespace Sys2Proof.Machine

/-- One bit iteration: "if high bit set, shift left and XOR with polynomial 0x31, else shift left" (R101). -/
def crcShift (acc : Byte) : Byte := if acc.msb then (acc <<< 1) ^^^ 0x31#8 else acc <<< 1

/-- `k` bit iterations. -/
def crcShifts : Nat → Byte → Byte
  | 0, acc => acc
  | k + 1, acc => crcShifts k (crcShift acc)

/-- One input byte: XOR into the accumulator, then 8 bit iterations (R101). -/
def crcByte (acc b : Byte) : Byte := crcShifts 8 (acc ^^^ b)

/-- `CRC8(b0, b1)`: the accumulator starts at 0xFF and takes `b0` first, then `b1` (R101). -/
def crc8 (b0 b1 : Byte) : Byte := crcByte (crcByte 0xFF#8 b0) b1

/-- The checksum of a data word, its more significant byte first. -/
def crc8Word (w : Word) : Byte := crc8 (hiByte w) (loByte w)

/-- CRC8 (R102). -/
def execCrc8 (w : Word) (s : State) : Host.Outcome State Fault Refusal :=
  .next (finish .ok (some (zextByte (crc8Word w))) none s)

/-- CRCCHK (R104): the answer is 1 or 0, and the outcome is Ok either way. -/
def execCrcchk (w : Word) (c : Byte) (s : State) : Host.Outcome State Fault Refusal :=
  .next (finish .ok (some (if crc8Word w = c then 1#32 else 0#32)) none s)

end Sys2Proof.Machine
end

