-- ==== Sys2Proof/Machine/FrameBuild.lean ====
section
/-! DEFINITION. The six BUILD operations (spec R110 to R119). -/

namespace Sys2Proof.Machine

/-- A field group: two bytes big-endian, then their checksum (`G(f)` of R110). -/
def fieldGroup (f : Word) : List Byte := [hiByte f, loByte f, crc8 (hiByte f) (loByte f)]

/-- `EncodeFields(cmd, fields)` (R110): the command's two bytes, without a checksum (R71), then a group a field. -/
def encodeFields (cmd : Word) (fields : List Word) : List Byte :=
  [hiByte cmd, loByte cmd] ++ fields.flatMap fieldGroup

/-- The blob frame, with its irregular checksum cadence: chunks of 3, 3 and 2 bytes (R78, R117). `crc3` is the
parameter `BLOB_CRC3`. -/
def blobFrame (crc3 : Byte → Byte → Byte → Byte) (cmd : Word) (b0 b1 b2 b3 b4 b5 b6 b7 : Byte) : List Byte :=
  [hiByte cmd, loByte cmd,
    b0, b1, b2, crc3 b0 b1 b2,
    b3, b4, b5, crc3 b3 b4 b5,
    b6, b7, crc8 b6 b7]

/-- The default the spec gives `BLOB_CRC3`: the checksum of the chunk's last two bytes (R6). No meaning uses it
(entry 10). -/
def blobCrc3Default (_b0 b1 b2 : Byte) : Byte := crc8 b1 b2

/-- BUILD.NONE (R111). -/
def execBuildNone (cmd : Word) (s : State) : Host.Outcome State Fault Refusal :=
  .next (loadFrame (encodeFields cmd []) s)

/-- BUILD.S16 (R112). -/
def execBuildS16 (cmd v : Word) (s : State) : Host.Outcome State Fault Refusal :=
  .next (loadFrame (encodeFields cmd [v]) s)

/-- BUILD.S32 (R113). -/
def execBuildS32 (cmd : Word) (v : Long) (s : State) : Host.Outcome State Fault Refusal :=
  .next (loadFrame (encodeFields cmd (scalarFields v)) s)

/-- BUILD.TCOMP (R114). -/
def execBuildTcomp (cmd f0 f1 f2 : Word) (s : State) : Host.Outcome State Fault Refusal :=
  .next (loadFrame (encodeFields cmd [f0, f1, f2]) s)

/-- BUILD.TUNE (R115). -/
def execBuildTune (cmd f0 f1 f2 f3 f4 f5 : Word) (s : State) : Host.Outcome State Fault Refusal :=
  .next (loadFrame (encodeFields cmd [f0, f1, f2, f3, f4, f5]) s)

/-- BUILD.BLOB (R117), for whatever `BLOB_CRC3` the machine has. -/
def execBuildBlob (cmd : Word) (b0 b1 b2 b3 b4 b5 b6 b7 : Byte) (s : State) : Host.Outcome State Fault Refusal :=
  .next (loadFrame (blobFrame Config.blobCrc3 cmd b0 b1 b2 b3 b4 b5 b6 b7) s)

end Sys2Proof.Machine
end

