-- ==== Sys2Proof/Machine/FrameRead.lean ====
section
/-! DEFINITION. The operations REQLEN and READ (spec R130 to R143). -/

namespace Sys2Proof.Machine

/-- The raw byte count of a request for `n` data bytes under a cap: "integer division and comes before the
multiplication", the result "not truncated to 8 bits" (R131). -/
def requestLength (cap : Option Nat) (n : Nat) : Nat :=
  let q := n / 2 * 3
  match cap with
  | none => q
  | some c => if c < q then c else q

/-- REQLEN (R131), under the machine's `RAW_CAP`. -/
def execReqlen (n : Byte) (s : State) : Host.Outcome State Fault Refusal :=
  .next (finish .ok (some (BitVec.ofNat 32 (requestLength Config.rawCap n.toNat))) none s)

/-- What a READ has collected so far: the bytes stored from `RXBUF[0]`, how many, and the raw cursor `rp` (R31, R134). -/
structure Cursor where
  mem : Memory
  len : Nat
  rp : Nat
  deriving DecidableEq, Repr

/-- How the loop of R134 ends. -/
inductive LoopEnd where
  /-- A group's checksum byte is wrong. -/
  | mismatch
  /-- `Z` = 1 and a zero word was stored. -/
  | zeroStop
  /-- `n` bytes are collected, or fewer than three raw bytes are left. -/
  | ended
  deriving DecidableEq, Repr

/-- The start of the loop: nothing collected, and no byte of `RXBUF` specified (R134, R136). -/
def cursorStart : Cursor := { mem := [], len := 0, rp := 0 }

/-- A whole group consumed and its two data bytes stored. -/
def Cursor.keep (d0 d1 : Byte) (c : Cursor) : Cursor :=
  { mem := Memory.store c.len [d0, d1] c.mem, len := c.len + 2, rp := c.rp + 3 }

/-- The `while` loop of R134 over the raw bytes still to come. In each group the checksum is compared before the group
is stored, and the zero test comes after (R137). -/
def readLoop (n : Nat) (z : Bool) : List Byte → Cursor → LoopEnd × Cursor
  | d0 :: d1 :: chk :: raw, c =>
    if c.len < n then
      if crc8 d0 d1 = chk then
        if z && d0 == 0#8 && d1 == 0#8 then (.zeroStop, c.keep d0 d1)
        else readLoop n z raw (c.keep d0 d1)
      else (.mismatch, { c with rp := c.rp + 3 })
    else (.ended, c)
  | _, c => (.ended, c)

/-- A READ that returns Ok: what it collected is a validated receive buffer (R26, R134). The raw bytes it consumed
are gone from the front of the list, the others are left (R139; entry 12). -/
def readOk (c : Cursor) (s : State) : State :=
  finish .ok (some (BitVec.ofNat 32 c.rp)) none
    { s with rxbuf := c.mem, rxLen := BitVec.ofNat 8 c.len, rxValid := true, raw := s.raw.drop c.rp }

/-- A READ that returns an error result: RX_VALID = 0 and RX_LEN = 0, and no byte of `RXBUF` is specified (R136). -/
def readError (r : Result) (c : Cursor) (s : State) : State :=
  finish r (some (BitVec.ofNat 32 c.rp)) none
    { s with rxbuf := [], rxLen := 0#8, rxValid := false, raw := s.raw.drop c.rp }

/-- How a READ of `n` bytes ends, by the order of R137: a mismatch or a zero word as the loop met it, then NoData, then
LengthMismatch, then Ok (R134). -/
def readEnd (n : Nat) (e : LoopEnd × Cursor) (s : State) : State :=
  match e.1 with
  | .mismatch => readError .checksumMismatch e.2 s
  | .zeroStop => readOk e.2 s
  | .ended =>
    if e.2.len = 0 then readError .noData e.2 s
    else if e.2.len = n then readOk e.2 s
    else readError .lengthMismatch e.2 s

/-- READ (R133, R134): the operand check, IllegalOp before BadOperand (R180), then the loop over the raw list. -/
def execRead (n fl : Byte) (s : State) : Host.Outcome State Fault Refusal :=
  if readReserved fl then .next (raise .illegalOp s)
  else if n.toNat ≤ Config.rxMax then
    .next (readEnd n.toNat (readLoop n.toNat (stopFlag fl) s.raw cursorStart) s)
  else .next (raise (.badOperand n) s)

end Sys2Proof.Machine
end

