-- ==== Sys2Proof/Machine/TypedDecode.lean ====
section
/-! DEFINITION. The six typed decode operations (spec R150 to R163). -/

namespace Sys2Proof.Machine

/-- A decode of `width` bytes at `off` that delivers `value` of the state, and `k` on `res_k`: the checks of R150 (2)
and (3), then Ok. -/
def decodeField (width : Nat) (off : Byte) (value : State → Long) (k : Option (BitVec 2)) (s : State) : State :=
  match decodeFault width off s with
  | some f => raise f s
  | none => finish .ok (some (value s)) k s

/-- A scaled decode: the selector's reserved bits are checked before the buffer (R150 (1), R87). -/
def decodeScaled (width : Nat) (off ks : Byte) (value : State → Long) (s : State) : State :=
  if scaleReserved ks then raise .illegalOp s
  else decodeField width off value (some (scaleSelector ks)) s

/-- DEC.U16 (R151). -/
def execDecU16 (off : Byte) (s : State) : Host.Outcome State Fault Refusal :=
  .next (decodeField 2 off (fun t => zext32 (memRead2 t off.toNat)) none s)

/-- DEC.I16 (R152). -/
def execDecI16 (off : Byte) (s : State) : Host.Outcome State Fault Refusal :=
  .next (decodeField 2 off (fun t => sext32 (memRead2 t off.toNat)) none s)

/-- DEC.U32 (R153). -/
def execDecU32 (off : Byte) (s : State) : Host.Outcome State Fault Refusal :=
  .next (decodeField 4 off (fun t => memRead4 t off.toNat) none s)

/-- SDEC.U16 (R159). -/
def execSdecU16 (off ks : Byte) (s : State) : Host.Outcome State Fault Refusal :=
  .next (decodeScaled 2 off ks (fun t => zext32 (memRead2 t off.toNat)) s)

/-- SDEC.I16 (R160). -/
def execSdecI16 (off ks : Byte) (s : State) : Host.Outcome State Fault Refusal :=
  .next (decodeScaled 2 off ks (fun t => sext32 (memRead2 t off.toNat)) s)

/-- SDEC.U32 (R161). -/
def execSdecU32 (off ks : Byte) (s : State) : Host.Outcome State Fault Refusal :=
  .next (decodeScaled 4 off ks (fun t => memRead4 t off.toNat) s)

end Sys2Proof.Machine
end

