-- ==== Sys2Proof/Machine/Dispatch.lean ====
section
/-! DEFINITION. One arm per operation: the meaning it calls. -/

namespace Sys2Proof.Machine

/-- The meaning of an operation. -/
def exec (i : Instr) (s : State) : Host.Outcome State Fault Refusal :=
  match i with
  | .crc8 w => Sys2Proof.Machine.execCrc8 w s
  | .crcchk w c => Sys2Proof.Machine.execCrcchk w c s
  | .buildNone cmd => Sys2Proof.Machine.execBuildNone cmd s
  | .buildS16 cmd v => Sys2Proof.Machine.execBuildS16 cmd v s
  | .buildS32 cmd v => Sys2Proof.Machine.execBuildS32 cmd v s
  | .buildTcomp cmd f0 f1 f2 => Sys2Proof.Machine.execBuildTcomp cmd f0 f1 f2 s
  | .buildTune cmd f0 f1 f2 f3 f4 f5 => Sys2Proof.Machine.execBuildTune cmd f0 f1 f2 f3 f4 f5 s
  | .buildBlob cmd b0 b1 b2 b3 b4 b5 b6 b7 => Sys2Proof.Machine.execBuildBlob cmd b0 b1 b2 b3 b4 b5 b6 b7 s
  | .reqlen n => Sys2Proof.Machine.execReqlen n s
  | .read n fl => Sys2Proof.Machine.execRead n fl s
  | .decU16 off => Sys2Proof.Machine.execDecU16 off s
  | .decI16 off => Sys2Proof.Machine.execDecI16 off s
  | .decU32 off => Sys2Proof.Machine.execDecU32 off s
  | .sdecU16 off ks => Sys2Proof.Machine.execSdecU16 off ks s
  | .sdecI16 off ks => Sys2Proof.Machine.execSdecI16 off ks s
  | .sdecU32 off ks => Sys2Proof.Machine.execSdecU32 off ks s

end Sys2Proof.Machine
end

