-- ==== Sys2Proof/Machine/Step.lean ====
section
/-! DEFINITION. One step of a run: the FCU takes the next thing the host does (spec R8, R61, R203). -/

namespace Sys2Proof.Machine

/-- One step. With nothing pending the FCU waits (R192; entry 5). A reset is a step (R190). Otherwise the descriptor
the host presents is decoded and the operation performed to its end (R8); a reserved operation code is consumed as one
byte and raises IllegalOp (R86). -/
def step (s : State) : Host.Outcome State Fault Refusal :=
  match s.pending with
  | [] => .next s
  | .reset :: later => .next (applyReset later)
  | .op descriptor raw :: later =>
    match decode descriptor with
    | .incomplete => .fault .descriptorIncomplete
    | .reserved _ left => .next (raise .illegalOp (accept left raw later s))
    | .instr i left => exec i (accept left raw later s)

/-- The host presents the descriptor of a table word next, with the raw list already handed over (entries 4, 8). -/
def State.withFetchWord (s : State) (nbits w : Nat) : State :=
  { s with pending := .op (tableBytes nbits w) s.raw :: s.pending }

end Sys2Proof.Machine
end

