-- ==== Sys2Proof/Safety.lean ====
section
/-! DEFINITION. The terms claims use: a good state, the invariants of the spec (R35) and of the representation, what two
states have in common, and well-formed raw streams. -/

namespace Sys2Proof.Machine

/-- "A run's final state is good when `FAULT` = 0" (R203, R171). -/
def Good (s : State) : Prop := s.fault = false

/-- The invariants of R35 that speak of one state, (a) to (d) and (f). -/
structure Inv (s : State) : Prop where
  /-- (a) `TX_LEN` is the length of a frame kind, or 0 (R23). -/
  txLen : s.txLen.toNat ∈ [0, 2, 5, 8, 11, 13, 20]
  /-- (b) `RX_LEN` is even ... -/
  rxEven : s.rxLen.toNat % 2 = 0
  /-- ... and at most `RX_MAX`. -/
  rxBound : s.rxLen.toNat ≤ Config.rxMax
  /-- (c) A valid buffer holds at least a word. -/
  validLen : s.rxValid = true → 2 ≤ s.rxLen.toNat
  /-- (d) An invalid buffer has length 0. -/
  invalidLen : s.rxValid = false → s.rxLen.toNat = 0
  /-- (f) `STATUS` is a code of R170. -/
  status : legalStatus s.status = true

/-- The addresses a byte space lists, in order. -/
def Memory.addresses (m : Memory) : List Nat := m.map fun c => c.1

/-- The representation invariant (entry 1): each buffer lists exactly the bytes below its length (R36), so it is in
canonical form. -/
structure BuffersExact (s : State) : Prop where
  tx : Memory.addresses s.txbuf = List.range s.txLen.toNat
  rx : Memory.addresses s.rxbuf = List.range s.rxLen.toNat

/-- A byte space holds these bytes, from address 0 on. -/
def Holds (m : Memory) (bs : List Byte) : Prop := ∀ i, i < bs.length → Memory.read m i = bs[i]?

/-- The receive side is the same: every byte, the length, the valid flag. -/
def SameReceive (s t : State) : Prop :=
  (∀ a, Memory.read t.rxbuf a = Memory.read s.rxbuf a) ∧ t.rxLen = s.rxLen ∧ t.rxValid = s.rxValid

/-- The transmit side is the same: every byte and the length. -/
def SameTransmit (s t : State) : Prop :=
  (∀ a, Memory.read t.txbuf a = Memory.read s.txbuf a) ∧ t.txLen = s.txLen

/-- What the host hands the FCU is the same. -/
def SameInputs (s t : State) : Prop := t.raw = s.raw ∧ t.pending = s.pending

/-- Everything a fault leaves as it was (R176): both buffers with their lengths, the valid flag, and the inputs. -/
def Untouched (s t : State) : Prop := SameTransmit s t ∧ SameReceive s t ∧ SameInputs s t

/-- Fault entry with this code (R176): STATUS takes the code, FAULT is set, no result is delivered (the
outputs are not driven, entry 3), and the rest is untouched. -/
def FaultTaken (code : BitVec 4) (s t : State) : Prop :=
  t.status = code ∧ t.fault = true ∧ t.res = none ∧ t.resK = none ∧ Untouched s t

/-- A data word as its two bytes, first byte first, with its checksum: a well-formed group (R75). -/
def goodGroup (w : Byte × Byte) : List Byte := [w.1, w.2, crc8 w.1 w.2]

/-- A raw stream of well-formed groups (R75). -/
def goodStream (ws : List (Byte × Byte)) : List Byte := ws.flatMap goodGroup

/-- The data bytes of a list of words, in order. -/
def dataBytes (ws : List (Byte × Byte)) : List Byte := ws.flatMap fun w => [w.1, w.2]

/-- No word is the zero word (R16). -/
def NoZeroWord (ws : List (Byte × Byte)) : Prop := ∀ w ∈ ws, w ≠ (0#8, 0#8)

/-- Six BUILD operations. -/
def isBuild : Instr → Bool
  | .buildNone _ => true
  | .buildS16 _ _ => true
  | .buildS32 _ _ => true
  | .buildTcomp _ _ _ _ => true
  | .buildTune _ _ _ _ _ _ _ => true
  | .buildBlob _ _ _ _ _ _ _ _ _ => true
  | .crc8 _ => false
  | .crcchk _ _ => false
  | .reqlen _ => false
  | .read _ _ => false
  | .decU16 _ => false
  | .decI16 _ => false
  | .decU32 _ => false
  | .sdecU16 _ _ => false
  | .sdecI16 _ _ => false
  | .sdecU32 _ _ => false

/-- A decode's width in bytes and its offset operand (R150); none for the other operations. -/
def decodeRange : Instr → Option (Nat × Byte)
  | .decU16 off => some (2, off)
  | .decI16 off => some (2, off)
  | .decU32 off => some (4, off)
  | .sdecU16 off _ => some (2, off)
  | .sdecI16 off _ => some (2, off)
  | .sdecU32 off _ => some (4, off)
  | .crc8 _ => none
  | .crcchk _ _ => none
  | .buildNone _ => none
  | .buildS16 _ _ => none
  | .buildS32 _ _ => none
  | .buildTcomp _ _ _ _ => none
  | .buildTune _ _ _ _ _ _ _ => none
  | .buildBlob _ _ _ _ _ _ _ _ _ => none
  | .reqlen _ => none
  | .read _ _ => none

/-- The number a byte string is, most significant byte first (R79). -/
def bigEndianNumber (bs : List Byte) : Nat := bs.foldl (fun acc b => acc * 256 + b.toNat) 0

/-- The two faults of a decode of `width` bytes at `off` whose selector, if it has one, is legal (R57): BufferInvalid first,
then OffsetOutOfRange, the sum formed without wrap-around. -/
def RangeFaults (i : Instr) (width : Nat) (off : Byte) (s : State) : Prop :=
  (s.rxValid = false → ∃ t, exec i s = .next t ∧ FaultTaken 11#4 s t) ∧
  (s.rxValid = true → s.rxLen.toNat < off.toNat + width → ∃ t, exec i s = .next t ∧ FaultTaken 10#4 s t)

/-- The outcome of an operation that computes a result and writes nothing but STATUS: Ok, FAULT kept, the rest untouched. -/
def Answered (s t : State) : Prop := t.status = 0#4 ∧ t.fault = s.fault ∧ Untouched s t

/-- What every BUILD writes (R118): the frame in `TXBUF` from index 0, its length, Ok, the frame on the transmit output;
FAULT, the receive side and the inputs are kept. Of the bytes of `TXBUF` above the frame it says nothing: R118 leaves them
unspecified. -/
def Built (frame : List Byte) (s t : State) : Prop :=
  Holds t.txbuf frame ∧ t.txLen.toNat = frame.length ∧ t.status = 0#4 ∧ t.txOut = frame ∧ t.fault = s.fault ∧
    SameReceive s t ∧ SameInputs s t

/-- A READ that ended Ok with these data bytes after consuming `rp` raw bytes (R134): the transmit side, FAULT and what
is still to come are kept. Of the bytes of `RXBUF` above the data it says nothing: R36 leaves them unspecified. -/
def ReadSucceeded (data : List Byte) (rp : Nat) (s t : State) : Prop :=
  t.status = 0#4 ∧ Holds t.rxbuf data ∧ t.rxLen.toNat = data.length ∧ t.rxValid = true ∧
    t.res = some (BitVec.ofNat 32 rp) ∧ t.raw = s.raw.drop rp ∧ SameTransmit s t ∧ t.fault = s.fault ∧
    t.pending = s.pending

/-- A READ that ended with an error result after consuming `rp` raw bytes (R136): RX_VALID = 0 and RX_LEN = 0;
the transmit side, FAULT and what is still to come are kept. Of the bytes of `RXBUF` it says nothing: R136 leaves them
unspecified. -/
def ReadFailed (code : BitVec 4) (rp : Nat) (s t : State) : Prop :=
  t.status = code ∧ t.rxLen = 0#8 ∧ t.rxValid = false ∧
    t.res = some (BitVec.ofNat 32 rp) ∧ t.raw = s.raw.drop rp ∧ SameTransmit s t ∧ t.fault = s.fault ∧
    t.pending = s.pending

/-- A READ that passes its operand check (R133). -/
def ReadOperandsOk (n fl : Byte) : Prop := fl &&& 0xFE#8 = 0#8 ∧ n.toNat ≤ Config.rxMax

/-- The scale constant that a selector byte with its reserved bits zero names (R84): 0, 1, 2, 3 for 10, 100, 200, 1000. -/
def namedScale (ks : Byte) : ℚ := if ks = 0#8 then 10 else if ks = 1#8 then 100 else if ks = 2#8 then 200 else 1000

/-- The sixteen operation codes of R85. -/
def operationCodes : List Byte :=
  [0x01#8, 0x02#8, 0x10#8, 0x11#8, 0x12#8, 0x13#8, 0x16#8, 0x18#8, 0x20#8, 0x21#8, 0x30#8, 0x31#8, 0x32#8, 0x34#8,
    0x35#8, 0x36#8]

/-- One clock of the bit-serial circuit of R105 (b): the register shifts left, and when the bit shifted out differs from
the message bit, 0x31 is exclusive-ored into it. -/
def serialClock (reg : Byte) (bit : Bool) : Byte :=
  if reg.msb != bit then (reg <<< 1) ^^^ 0x31#8 else reg <<< 1

/-- A bit pattern as a polynomial over GF(2), bit `i` the coefficient of `X ^ i`. -/
noncomputable def bitPolynomial {w : Nat} (v : BitVec w) : Polynomial (ZMod 2) :=
  ∑ i ∈ Finset.range w, if v.getLsbD i then Polynomial.X ^ i else 0

end Sys2Proof.Machine
end

