-- ==== Sys2Proof/Certificates/Slice0/Obligations.lean ====
section
/-! DEFINITION. The statements for the provers, each from a rule of the spec. -/

open Sys2Proof Sys2Proof.Machine

/-! ## Descriptors and steps -/

/-- R79, R80, R85: no bit of a descriptor is dropped. Whatever follows a descriptor, decoding it gives the operation back,
with every operand at every value, and leaves what follows. -/
def Obligations.DecodeOfEncode : Prop :=
  ∀ (i : Instr) (rest : List Byte), decode (encode i ++ rest) = .instr i rest

/-- R79, R89: the decoder accepts nothing but descriptors. Bytes that decode to an operation are its descriptor and what
follows. -/
def Obligations.DecodedBytesAreTheDescriptor : Prop :=
  ∀ (bs : List Byte) (i : Instr) (rest : List Byte), decode bs = .instr i rest → bs = encode i ++ rest

/-- R89: a descriptor's length is fixed by its operation code, 2 to 15 bytes, and a proper front of a descriptor is not
complete. -/
def Obligations.DescriptorLengthByCode : Prop :=
  ∀ (i : Instr),
    (encode i).length = descriptorLength (opcode i) ∧ 2 ≤ (encode i).length ∧ (encode i).length ≤ 15 ∧
      ∀ k, k < (encode i).length → decode ((encode i).take k) = .incomplete

/-- R85: words written out from the operation map and the formats, in the table's numbering, decode as they should. -/
def Obligations.SampleWordsDecode : Prop :=
  decodeTableWord 24 0x01BEEF = some (.crc8 0xBEEF#16) ∧
  decodeTableWord 32 0x02BEEF92 = some (.crcchk 0xBEEF#16 0x92#8) ∧
  decodeTableWord 56 0x12800400093A80 = some (.buildS32 0x8004#16 0x00093A80#32) ∧
  decodeTableWord 88 0x1812340102030405060708 =
    some (.buildBlob 0x1234#16 1#8 2#8 3#8 4#8 5#8 6#8 7#8 8#8) ∧
  decodeTableWord 16 0x20AA = some (.reqlen 0xAA#8) ∧
  decodeTableWord 24 0x211001 = some (.read 0x10#8 0x01#8) ∧
  decodeTableWord 16 0x3104 = some (.decI16 0x04#8) ∧
  decodeTableWord 24 0x350202 = some (.sdecI16 0x02#8 0x02#8) ∧
  decodeTableWord 24 0x330000 = none

/-- R79 (and entry 8): the number an operation's descriptor is, in the table's numbering, decodes to it, and placed where
the next step takes its descriptor it runs as exactly that operation. -/
def Obligations.TableWordRuns : Prop :=
  ∀ (i : Instr) (s : State),
    decodeTableWord (8 * (encode i).length) (bigEndianNumber (encode i)) = some i ∧
      step (s.withFetchWord (8 * (encode i).length) (bigEndianNumber (encode i))) = exec i s

/-- R8, R89: when the bytes the host presents decode to an operation, the step is that operation, performed with the raw
list handed over for it; what the host does next is unchanged, but for bytes left over, which stay presented (entry 7).
Nothing else of the state is changed around it. -/
def Obligations.StepRunsTheDecodedOperation : Prop :=
  ∀ (s : State) (d raw left : List Byte) (later : List HostStep) (i : Instr),
    s.pending = .op d raw :: later → decode d = .instr i left →
      step s = exec i { s with raw := raw, pending := if left = [] then later else .op left [] :: later }

/-- R86 (the spec's decision D5): an operation code outside R85's sixteen is reserved, 240 values; the step raises
IllegalOp and consumes one byte. -/
def Obligations.ReservedCodeRaisesIllegalOp : Prop :=
  ((List.range 256).filter fun k => !operationCodes.contains (BitVec.ofNat 8 k)).length = 240 ∧
  ∀ (s : State) (opc : Byte) (ops raw : List Byte) (later : List HostStep),
    opc ∉ operationCodes → s.pending = .op (opc :: ops) raw :: later →
      decode (opc :: ops) = .reserved opc ops ∧
      ∃ t, step s = .next t ∧ t.status = 8#4 ∧ t.fault = true ∧ t.res = none ∧ t.resK = none ∧
        SameTransmit s t ∧ SameReceive s t

/-- R87 (the spec's decision D5): a set bit among `fl[7:1]` of READ, or among `ks[7:2]` of an SDEC, raises IllegalOp and
changes nothing but STATUS and FAULT. -/
def Obligations.ReservedOperandBitsRaiseIllegalOp : Prop :=
  (∀ (n fl : Byte) (s : State), (∃ j, 1 ≤ j ∧ j ≤ 7 ∧ fl.getLsbD j = true) →
    ∃ t, exec (.read n fl) s = .next t ∧ FaultTaken 8#4 s t) ∧
  (∀ (off ks : Byte) (s : State), (∃ j, 2 ≤ j ∧ j ≤ 7 ∧ ks.getLsbD j = true) →
    (∃ t, exec (.sdecU16 off ks) s = .next t ∧ FaultTaken 8#4 s t) ∧
    (∃ t, exec (.sdecI16 off ks) s = .next t ∧ FaultTaken 8#4 s t) ∧
    (∃ t, exec (.sdecU32 off ks) s = .next t ∧ FaultTaken 8#4 s t))

/-- R192 and R203, with the model's own choices of entries 4, 5 and 7: with nothing pending the FCU waits, unchanged; a
reset takes one step of the run and leaves the rest of it to come; and so does a reserved operation code, but that the bytes
after it, if any, stay presented. -/
def Obligations.RunAdvancesByOneStep : Prop :=
  (∀ s : State, s.pending = [] → step s = .next s) ∧
  (∀ (s : State) (later : List HostStep), s.pending = .reset :: later → ∃ t, step s = .next t ∧ t.pending = later) ∧
  (∀ (s : State) (opc : Byte) (ops raw : List Byte) (later : List HostStep),
    opc ∉ operationCodes → s.pending = .op (opc :: ops) raw :: later →
      ∃ t, step s = .next t ∧ t.pending = if ops = [] then later else .op ops [] :: later)

/-- R203 (and entry 6): every operation terminates with a next state, and a step stops only where the host's bytes end
before a descriptor is complete. -/
def Obligations.OperationsTerminate : Prop :=
  (∀ (i : Instr) (s : State), ∃ t, exec i s = .next t) ∧
  ∀ (s : State), (∃ t, step s = .next t) ∨
    (step s = .fault .descriptorIncomplete ∧
      ∃ d raw later, s.pending = .op d raw :: later ∧ decode d = .incomplete)

/-! ## Reset and the whole machine -/

/-- R34: the state after reset. Of the buffers' bytes it says nothing: R34 leaves them unspecified. -/
def Obligations.ResetValues : Prop :=
  State.reset.txLen = 0#5 ∧ State.reset.rxLen = 0#8 ∧ State.reset.rxValid = false ∧ State.reset.status = 0#4 ∧
    State.reset.fault = false

/-- R190 (the spec's decision D26): a reset step puts the FCU in the state of R34, from any state, and is the only step
that clears FAULT. -/
def Obligations.ResetStepAloneClearsFault : Prop :=
  (∀ (s : State) (later : List HostStep), s.pending = .reset :: later →
    ∃ t, step s = .next t ∧ t.txLen = 0#5 ∧ t.rxLen = 0#8 ∧ t.rxValid = false ∧ t.status = 0#4 ∧ t.fault = false) ∧
  (∀ (s t : State), ¬ Good s → step s = .next t → Good t → ∃ later, s.pending = .reset :: later)

/-- R28 (the spec's decision D24): FAULT is set by every fault (a STATUS code from 8 up), a reserved operation code among
them, and cleared by reset; no operation reads it. R29 (the spec's own inference): no operation reads STATUS either. With
any other STATUS and FAULT before it, an operation does exactly the same. -/
def Obligations.StatusAndFaultInfluenceNothing : Prop :=
  (∀ (i : Instr) (s t : State) (c : BitVec 4) (f : Bool), exec i s = .next t →
    exec i { s with status := c, fault := f } = .next { t with fault := f || decide (8 ≤ t.status.toNat) }) ∧
  (∀ (s t : State) (d raw : List Byte) (later : List HostStep) (c : BitVec 4) (f : Bool),
    s.pending = .op d raw :: later → step s = .next t →
      step { s with status := c, fault := f } = .next { t with fault := f || decide (8 ≤ t.status.toNat) }) ∧
  (∀ (s : State) (later : List HostStep), s.pending = .reset :: later → ∃ t, step s = .next t ∧ t.fault = false)

/-- The invariants R35 (the spec's own inference) hold after reset. -/
def Obligations.InvAtReset : Prop := Inv State.reset

/-- Every step keeps the invariants R35 (a) to (d) and (f) (the spec's own inference), from every state that has them. -/
def Obligations.StepKeepsInv : Prop := ∀ (s t : State), Inv s → step s = .next t → Inv t

/-- The buffers of the state after reset list exactly the bytes below their lengths (entry 1), in canonical form. -/
def Obligations.BuffersExactAtReset : Prop :=
  BuffersExact State.reset ∧ Memory.wf State.reset.txbuf = true ∧ Memory.wf State.reset.rxbuf = true

/-- Every step keeps the buffers listing exactly the bytes below their lengths (the model's own representation, entry 1),
and such buffers are in canonical form. -/
def Obligations.StepKeepsBuffersExact : Prop :=
  ∀ (s t : State), BuffersExact s → step s = .next t →
    BuffersExact t ∧ Memory.wf t.txbuf = true ∧ Memory.wf t.rxbuf = true

/-- R22 to R25: only a BUILD writes the transmit side, only a READ writes the receive side; no operation changes what the
host does next, and only a READ consumes raw bytes. -/
def Obligations.OnlyBuildAndReadWriteBuffers : Prop :=
  ∀ (i : Instr) (s t : State), exec i s = .next t →
    (isBuild i = false → SameTransmit s t) ∧
    ((∀ n fl, i ≠ .read n fl) → SameReceive s t ∧ t.raw = s.raw) ∧
    t.pending = s.pending

/-- R175 (the spec's own inference): which operation can end how. -/
def Obligations.OutcomesByOperation : Prop :=
  ∀ (i : Instr) (s t : State), exec i s = .next t →
    match i with
    | .read _ _ => t.status ∈ [0#4, 1#4, 2#4, 3#4, 8#4, 9#4]
    | .decU16 _ | .decI16 _ | .decU32 _ => t.status ∈ [0#4, 10#4, 11#4]
    | .sdecU16 _ _ | .sdecI16 _ _ | .sdecU32 _ _ => t.status ∈ [0#4, 8#4, 10#4, 11#4]
    | _ => t.status = 0#4

/-! ## The checksum -/

/-- R107 (the spec's own inference) and the table of vectors V2: values worked out from the algorithm. -/
def Obligations.ChecksumReferenceValues : Prop :=
  crc8 0xBE#8 0xEF#8 = 0x92#8 ∧ crc8 0x00#8 0x00#8 = 0x81#8 ∧ crc8 0xFF#8 0x00#8 = 0x00#8 ∧
    crc8 0xFF#8 0xFF#8 = 0xAC#8 ∧ crc8 0x3A#8 0x80#8 = 0xA7#8 ∧ crc8 0x00#8 0x01#8 = 0xB0#8 ∧
    crc8 0x01#8 0x00#8 = 0x75#8

/-- R102: CRC8 completes on every word, with the checksum of its two bytes, the more significant first, on the result
output, and writes nothing but STATUS. -/
def Obligations.Crc8Answers : Prop :=
  ∀ (w : Word) (s : State), ∃ t, exec (.crc8 w) s = .next t ∧
    t.res = some ((crc8 (w.extractLsb' 8 8) (w.extractLsb' 0 8)).setWidth 32) ∧ Answered s t

/-- R104 (the spec's decision D29): CRCCHK completes, with 1 when the byte is the word's checksum and 0 otherwise, Ok either
way; exactly one byte gives 1. -/
def Obligations.CrcchkAnswers : Prop :=
  (∀ (w : Word) (c : Byte) (s : State), ∃ t, exec (.crcchk w c) s = .next t ∧
    t.res = some (if crc8 (w.extractLsb' 8 8) (w.extractLsb' 0 8) = c then 1#32 else 0#32) ∧ Answered s t) ∧
  (∀ (w : Word) (s : State), ∃ c, ∀ c' t, exec (.crcchk w c') s = .next t → (t.res = some 1#32 ↔ c' = c))

/-- R105 (b) (the spec's own inference): the checksum is the register of the bit-serial circuit, preset to all ones, after
the 16 message bits, most significant bit of `b0` first. -/
def Obligations.ChecksumIsBitSerial : Prop :=
  ∀ (b0 b1 : Byte),
    crc8 b0 b1 = ((List.range 16).map fun k => (b0 ++ b1).getMsbD k).foldl serialClock 0xFF#8

/-- R105 (a) (the spec's own inference): the checksum is the remainder of the message `(b0 xor 0xFF) ∥ b1 ∥ 0x00` by the
generator x^8 + x^5 + x^4 + 1, over GF(2). -/
def Obligations.ChecksumIsPolynomialRemainder : Prop :=
  ∀ (b0 b1 : Byte),
    bitPolynomial ((b0 ^^^ 0xFF#8) ++ b1 ++ 0x00#8) %ₘ
        (Polynomial.X ^ 8 + Polynomial.X ^ 5 + Polynomial.X ^ 4 + 1 : Polynomial (ZMod 2)) =
      bitPolynomial (crc8 b0 b1)

/-- R106 (b) (the spec's own inference): for a fixed first byte the checksum is a bijection of the second, and for a fixed
second byte a bijection of the first. -/
def Obligations.ChecksumIsBijectiveInEachByte : Prop :=
  (∀ b0, Function.Bijective fun b1 => crc8 b0 b1) ∧ (∀ b1, Function.Bijective fun b0 => crc8 b0 b1)

/-- R106 (e) (the spec's own inference): exactly 256 words have checksum 0x00, 0x00AC is the smallest, and the all-zero
word is not one of them. -/
def Obligations.WordsOfChecksumZero : Prop :=
  (Finset.univ.filter fun w : Fin 65536 => crc8Word (BitVec.ofFin w) = 0#8).card = 256 ∧
    crc8Word 0x00AC#16 = 0#8 ∧ (∀ w : Word, crc8Word w = 0#8 → 0x00AC#16 ≤ w)

/-! ## Building frames -/

/-- R111, R118: BUILD.NONE completes with the command's two bytes as the frame. -/
def Obligations.BuildNoneFrame : Prop :=
  ∀ (cmd : Word) (s : State), ∃ t, exec (.buildNone cmd) s = .next t ∧
    Built [cmd.extractLsb' 8 8, cmd.extractLsb' 0 8] s t

/-- R112, R118: BUILD.S16 completes with the command and one field group. -/
def Obligations.BuildS16Frame : Prop :=
  ∀ (cmd v : Word) (s : State), ∃ t, exec (.buildS16 cmd v) s = .next t ∧
    Built [cmd.extractLsb' 8 8, cmd.extractLsb' 0 8,
      v.extractLsb' 8 8, v.extractLsb' 0 8, crc8 (v.extractLsb' 8 8) (v.extractLsb' 0 8)] s t

/-- R82, R113: BUILD.S32 completes with the command and the two halves of the value, high word first; the source's worked
frame comes out byte for byte. -/
def Obligations.BuildS32Frame : Prop :=
  (∀ (cmd : Word) (v : Long) (s : State), ∃ t, exec (.buildS32 cmd v) s = .next t ∧
    Built [cmd.extractLsb' 8 8, cmd.extractLsb' 0 8,
      v.extractLsb' 24 8, v.extractLsb' 16 8, crc8 (v.extractLsb' 24 8) (v.extractLsb' 16 8),
      v.extractLsb' 8 8, v.extractLsb' 0 8, crc8 (v.extractLsb' 8 8) (v.extractLsb' 0 8)] s t) ∧
  (∀ (s : State), ∃ t, exec (.buildS32 0x8004#16 604800#32) s = .next t ∧
    t.txOut = [0x80#8, 0x04#8, 0x00#8, 0x09#8, crc8 0x00#8 0x09#8, 0x3A#8, 0x80#8, crc8 0x3A#8 0x80#8])

/-- R114, R118: BUILD.TCOMP completes with the command and three field groups, in operand order. -/
def Obligations.BuildTcompFrame : Prop :=
  ∀ (cmd f0 f1 f2 : Word) (s : State), ∃ t, exec (.buildTcomp cmd f0 f1 f2) s = .next t ∧
    Built [cmd.extractLsb' 8 8, cmd.extractLsb' 0 8,
      f0.extractLsb' 8 8, f0.extractLsb' 0 8, crc8 (f0.extractLsb' 8 8) (f0.extractLsb' 0 8),
      f1.extractLsb' 8 8, f1.extractLsb' 0 8, crc8 (f1.extractLsb' 8 8) (f1.extractLsb' 0 8),
      f2.extractLsb' 8 8, f2.extractLsb' 0 8, crc8 (f2.extractLsb' 8 8) (f2.extractLsb' 0 8)] s t

/-- R115, R118: BUILD.TUNE completes with the command and six field groups, in operand order, 20 bytes. -/
def Obligations.BuildTuneFrame : Prop :=
  ∀ (cmd f0 f1 f2 f3 f4 f5 : Word) (s : State), ∃ t, exec (.buildTune cmd f0 f1 f2 f3 f4 f5) s = .next t ∧
    t.txLen = 20#5 ∧
    Built ([cmd.extractLsb' 8 8, cmd.extractLsb' 0 8] ++
      goodStream ([f0, f1, f2, f3, f4, f5].map fun f => (f.extractLsb' 8 8, f.extractLsb' 0 8))) s t

/-- R117 (the spec's decision D20): BUILD.BLOB completes with chunks of 3, 3 and 2 bytes, each followed by its checksum, for
whatever `BLOB_CRC3` the machine has; with the default of R6 in its place the spec's example comes out. -/
def Obligations.BuildBlobFrame : Prop :=
  (∀ (cmd : Word) (b0 b1 b2 b3 b4 b5 b6 b7 : Byte) (s : State),
    ∃ t, exec (.buildBlob cmd b0 b1 b2 b3 b4 b5 b6 b7) s = .next t ∧ t.txLen = 13#5 ∧
      Built [cmd.extractLsb' 8 8, cmd.extractLsb' 0 8, b0, b1, b2, Config.blobCrc3 b0 b1 b2,
        b3, b4, b5, Config.blobCrc3 b3 b4 b5, b6, b7, crc8 b6 b7] s t) ∧
  blobFrame blobCrc3Default 0x1234#16 1#8 2#8 3#8 4#8 5#8 6#8 7#8 8#8 =
    [0x12#8, 0x34#8, 0x01#8, 0x02#8, 0x03#8, 0x0B#8, 0x04#8, 0x05#8, 0x06#8, 0x50#8, 0x07#8, 0x08#8, 0x96#8]

/-- R23, R116 (the spec's own inference): after a BUILD the length is one of the six frame lengths, so no byte at or above
`TX_MAX` is ever written. -/
def Obligations.FramesFitTheTransmitBuffer : Prop :=
  ∀ (i : Instr) (s t : State), isBuild i = true → exec i s = .next t →
    t.txLen.toNat ∈ [2, 5, 8, 11, 13, 20] ∧ ∀ a, Config.txMax ≤ a → Memory.read t.txbuf a = none

/-! ## Reading frames -/

/-- R131 (the spec's decision D17): REQLEN completes with three raw bytes for every two data bytes, cut at the cap, and writes
nothing but STATUS. -/
def Obligations.ReqlenAnswers : Prop :=
  ∀ (n : Byte) (s : State), ∃ t r, exec (.reqlen n) s = .next t ∧ t.res = some r ∧ Answered s t ∧
    r.toNat = match Config.rawCap with
      | none => n.toNat / 2 * 3
      | some cap => min (n.toNat / 2 * 3) cap

/-- R133 (the spec's decision D9): a READ of more bytes than the buffer holds raises BadOperand, unless reserved bits have
already raised IllegalOp; either way no buffer, length or flag but STATUS and FAULT changes, and no raw byte is consumed. -/
def Obligations.ReadOperandCheck : Prop :=
  ∀ (n fl : Byte) (s : State),
    (fl &&& 0xFE#8 ≠ 0#8 → ∃ t, exec (.read n fl) s = .next t ∧ FaultTaken 8#4 s t) ∧
    (fl &&& 0xFE#8 = 0#8 → Config.rxMax < n.toNat → ∃ t, exec (.read n fl) s = .next t ∧ FaultTaken 9#4 s t)

/-- R134: a READ that finds all its `n` bytes in well-formed groups, and with the stop flag no zero word among them,
completes with exactly those bytes, having consumed those groups and nothing that follows them (what is not consumed stays
in the field raw: the model's choice, entry 12). -/
def Obligations.ReadCollectsTheRequestedBytes : Prop :=
  ∀ (n fl : Byte) (ws : List (Byte × Byte)) (rest : List Byte) (s : State),
    ReadOperandsOk n fl → s.raw = goodStream ws ++ rest → ws ≠ [] → 2 * ws.length = n.toNat →
    (fl.getLsbD 0 = true → NoZeroWord ws) →
      ∃ t, exec (.read n fl) s = .next t ∧ ReadSucceeded (dataBytes ws) (3 * ws.length) s t ∧ t.raw = rest

/-- R134, R140 (the spec's decision D15): with the stop flag, a READ stops with Ok at the first zero word it reaches; the zero
word is stored and counted, and nothing after it is consumed (it stays in the field raw: entry 12). -/
def Obligations.ReadStopsAtTheZeroWord : Prop :=
  ∀ (n fl : Byte) (ws : List (Byte × Byte)) (rest : List Byte) (s : State),
    ReadOperandsOk n fl → fl.getLsbD 0 = true →
    s.raw = goodStream ws ++ [0#8, 0#8, crc8 0#8 0#8] ++ rest → NoZeroWord ws → 2 * ws.length < n.toNat →
      ∃ t, exec (.read n fl) s = .next t ∧
        ReadSucceeded (dataBytes ws ++ [0#8, 0#8]) (3 * ws.length + 3) s t ∧ t.raw = rest

/-- R134, R136, R172: a READ fails with ChecksumMismatch at the first group it reaches whose checksum byte is wrong, a zero
word included, and keeps nothing of the groups before it. What it has not consumed stays in the field raw (entry 12). -/
def Obligations.ReadFailsOnABadChecksum : Prop :=
  ∀ (n fl : Byte) (ws : List (Byte × Byte)) (d0 d1 chk : Byte) (rest : List Byte) (s : State),
    ReadOperandsOk n fl → s.raw = goodStream ws ++ [d0, d1, chk] ++ rest → crc8 d0 d1 ≠ chk →
    2 * ws.length < n.toNat → (fl.getLsbD 0 = true → NoZeroWord ws) →
      ∃ t, exec (.read n fl) s = .next t ∧ ReadFailed 1#4 (3 * ws.length + 3) s t

/-- A READ of no bytes ends with NoData (R135, the spec's decision D10), and so does one that fewer than three raw bytes answer
(R134 with R139; R142 and R143 say it too, the spec's own inference). It consumes nothing: the raw list stays in the field raw
(the model's choice, entry 12). -/
def Obligations.ReadWithoutDataIsNoData : Prop :=
  ∀ (n fl : Byte) (s : State), ReadOperandsOk n fl → n = 0#8 ∨ s.raw.length < 3 →
    ∃ t, exec (.read n fl) s = .next t ∧ ReadFailed 3#4 0 s t

/-- R134, R139: a READ whose input runs out, with some but not all of its bytes collected and no stop, ends with
LengthMismatch; one or two leftover raw bytes are not counted, and stay in the field raw (entry 12). -/
def Obligations.ReadOfTooFewBytesIsLengthMismatch : Prop :=
  ∀ (n fl : Byte) (ws : List (Byte × Byte)) (leftover : List Byte) (s : State),
    ReadOperandsOk n fl → s.raw = goodStream ws ++ leftover → leftover.length < 3 → ws ≠ [] →
    2 * ws.length < n.toNat → (fl.getLsbD 0 = true → NoZeroWord ws) →
      ∃ t, exec (.read n fl) s = .next t ∧ ReadFailed 2#4 (3 * ws.length) s t

/-- R138 (the spec's decision D11): an odd `n` is never met. With enough input and no stop, a READ collects `n` + 1 bytes and
ends with LengthMismatch. What follows stays in the field raw (entry 12). -/
def Obligations.ReadOfAnOddLengthIsLengthMismatch : Prop :=
  ∀ (n fl : Byte) (ws : List (Byte × Byte)) (rest : List Byte) (s : State),
    ReadOperandsOk n fl → s.raw = goodStream ws ++ rest → 2 * ws.length = n.toNat + 1 →
    (fl.getLsbD 0 = true → NoZeroWord ws) →
      ∃ t, exec (.read n fl) s = .next t ∧ ReadFailed 2#4 (3 * ws.length) s t

/-- R130: "There is no operation that can silently succeed with corrupted data". Whatever raw bytes a READ is given, it
completes, and either it returned Ok and the receive buffer is the data of well-formed groups from the front of the list,
`n` bytes of them or up to a zero word under the stop flag (R134); or it returned one of the three errors with no receive
buffer (R136). That the raw bytes it did not consume stay in the field raw is the model's choice (entry 12), no rule's. -/
def Obligations.ReadNeverAcceptsCorruptedData : Prop :=
  ∀ (n fl : Byte) (s : State), ReadOperandsOk n fl →
    ∃ t, exec (.read n fl) s = .next t ∧
      ((∃ ws tail, s.raw = goodStream ws ++ tail ∧ ws ≠ [] ∧ ReadSucceeded (dataBytes ws) (3 * ws.length) s t ∧
          (2 * ws.length = n.toNat ∨ (fl.getLsbD 0 = true ∧ ws.getLast? = some (0#8, 0#8)))) ∨
        (∃ code rp, code ∈ [1#4, 2#4, 3#4] ∧ ReadFailed code rp s t))

/-- R141 (b) (the spec's own inference): one flipped bit in a group that the READ reaches, in its checksum byte or in either
data byte, makes the READ fail with ChecksumMismatch. What it has not consumed stays in the field raw (entry 12). -/
def Obligations.ReadDetectsEverySingleBitError : Prop :=
  ∀ (n fl : Byte) (ws : List (Byte × Byte)) (d0 d1 : Byte) (j : Nat) (group rest : List Byte) (s : State),
    ReadOperandsOk n fl → j < 8 →
    group ∈ [[d0, d1, crc8 d0 d1 ^^^ (1#8 <<< j)], [d0 ^^^ (1#8 <<< j), d1, crc8 d0 d1],
      [d0, d1 ^^^ (1#8 <<< j), crc8 d0 d1]] →
    s.raw = goodStream ws ++ group ++ rest → 2 * ws.length < n.toNat → (fl.getLsbD 0 = true → NoZeroWord ws) →
      ∃ t, exec (.read n fl) s = .next t ∧ ReadFailed 1#4 (3 * ws.length + 3) s t

/-- R136: after a READ that returned an error result, every decode faults with BufferInvalid. -/
def Obligations.DecodesFaultAfterAFailedRead : Prop :=
  ∀ (n fl : Byte) (s t : State) (i : Instr), exec (.read n fl) s = .next t → t.status ∈ [1#4, 2#4, 3#4] →
    decodeRange i ≠ none → i.wf = true → ∃ u, exec i t = .next u ∧ FaultTaken 11#4 t u

/-- R136: "The previous content of the receive buffer is lost in every case". A READ that passes its operand check does the
same whatever the receive side held. -/
def Obligations.ReadForgetsThePreviousBuffer : Prop :=
  ∀ (n fl : Byte) (s : State) (m : Memory) (len : BitVec 8) (valid : Bool), ReadOperandsOk n fl →
    exec (.read n fl) { s with rxbuf := m, rxLen := len, rxValid := valid } = exec (.read n fl) s

/-- R120 (the spec's own inference): the round trip. The payload of a regular frame, given back as the raw bytes of a READ of
twice as many bytes as it has fields, comes out as the fields, in order. That it leaves the field raw empty rests on the
model's choice of entry 12. -/
def Obligations.BuiltFieldsReadBack : Prop :=
  ∀ (i : Instr) (fields : List Word) (s t : State),
    (∃ cmd, (∃ v, i = .buildS16 cmd v ∧ fields = [v]) ∨
      (∃ v, i = .buildS32 cmd v ∧ fields = [v.extractLsb' 16 16, v.extractLsb' 0 16]) ∨
      (∃ f0 f1 f2, i = .buildTcomp cmd f0 f1 f2 ∧ fields = [f0, f1, f2]) ∨
      (∃ f0 f1 f2 f3 f4 f5, i = .buildTune cmd f0 f1 f2 f3 f4 f5 ∧ fields = [f0, f1, f2, f3, f4, f5])) →
    exec i s = .next t →
      ∃ u, exec (.read (BitVec.ofNat 8 (2 * fields.length)) 0#8) { t with raw := t.txOut.drop 2 } = .next u ∧
        u.status = 0#4 ∧ u.rxValid = true ∧ u.rxLen.toNat = 2 * fields.length ∧ u.raw = [] ∧
        ∀ k, k < fields.length → some (memRead2 u (2 * k)) = fields[k]?

/-- The source's zero-termination example (R141 (c), the spec's own inference): "ABCD" padded with zero words, read as 16
bytes with the stop flag, gives the four characters and the zero word, and consumes 9 of the 24 raw bytes; the others stay
in the field raw (entry 12). -/
def Obligations.ZeroTerminationExample : Prop :=
  ∀ (s : State),
    s.raw = [0x41#8, 0x42#8, 0xA3#8, 0x43#8, 0x44#8, 0xDC#8, 0x00#8, 0x00#8, 0x81#8] ++
        (List.replicate 5 [0x00#8, 0x00#8, 0x81#8]).flatten →
      ∃ t, exec (.read 16#8 1#8) s = .next t ∧
        ReadSucceeded [0x41#8, 0x42#8, 0x43#8, 0x44#8, 0x00#8, 0x00#8] 9 s t

/-! ## Typed decodes -/

/-- R150 (the spec's decision D18): the checks of the six decodes, in their order. -/
def Obligations.DecodeChecksInOrder : Prop :=
  ∀ (i : Instr) (width : Nat) (off : Byte) (s : State), decodeRange i = some (width, off) →
    (i.wf = false → ∃ t, exec i s = .next t ∧ FaultTaken 8#4 s t) ∧
    (i.wf = true → s.rxValid = false → ∃ t, exec i s = .next t ∧ FaultTaken 11#4 s t) ∧
    (i.wf = true → s.rxValid = true → s.rxLen.toNat < off.toNat + width →
      ∃ t, exec i s = .next t ∧ FaultTaken 10#4 s t)

/-- R151: DEC.U16 in range completes with the big-endian unsigned value of the two bytes, and writes nothing but STATUS; out of
range, or with no valid buffer, it faults. -/
def Obligations.DecU16Value : Prop :=
  (∀ (off : Byte) (s : State), s.rxValid = true → off.toNat + 2 ≤ s.rxLen.toNat →
    ∃ t r, exec (.decU16 off) s = .next t ∧ t.res = some r ∧ Answered s t ∧
      r.toNat = (rxByte s off.toNat).toNat * 256 + (rxByte s (off.toNat + 1)).toNat) ∧
  ∀ (off : Byte) (s : State), RangeFaults (.decU16 off) 2 off s

/-- R152: DEC.I16 in range completes with the same bits as a two's complement value; otherwise it faults. -/
def Obligations.DecI16Value : Prop :=
  (∀ (off : Byte) (s : State), s.rxValid = true → off.toNat + 2 ≤ s.rxLen.toNat →
    ∃ t r, exec (.decI16 off) s = .next t ∧ t.res = some r ∧ Answered s t ∧
      ∀ u : Nat, u = (rxByte s off.toNat).toNat * 256 + (rxByte s (off.toNat + 1)).toNat →
        r.toInt = if u < 32768 then (u : Int) else (u : Int) - 65536) ∧
  ∀ (off : Byte) (s : State), RangeFaults (.decI16 off) 2 off s

/-- R153: DEC.U32 in range completes with the big-endian unsigned value of the four bytes; otherwise it faults. -/
def Obligations.DecU32Value : Prop :=
  (∀ (off : Byte) (s : State), s.rxValid = true → off.toNat + 4 ≤ s.rxLen.toNat →
    ∃ t r, exec (.decU32 off) s = .next t ∧ t.res = some r ∧ Answered s t ∧
      r.toNat = (rxByte s off.toNat).toNat * 2 ^ 24 + (rxByte s (off.toNat + 1)).toNat * 2 ^ 16 +
        (rxByte s (off.toNat + 2)).toNat * 2 ^ 8 + (rxByte s (off.toNat + 3)).toNat) ∧
  ∀ (off : Byte) (s : State), RangeFaults (.decU32 off) 4 off s

/-- R159: SDEC.U16 in range completes with the unsigned integer and the selector, whose exact quotient is the value;
otherwise it faults. -/
def Obligations.SdecU16Value : Prop :=
  (∀ (off ks : Byte) (s : State), ks &&& 0xFC#8 = 0#8 → s.rxValid = true → off.toNat + 2 ≤ s.rxLen.toNat →
    ∃ t r, exec (.sdecU16 off ks) s = .next t ∧ t.res = some r ∧ t.resK = some (ks.extractLsb' 0 2) ∧ Answered s t ∧
      r.toNat = (rxByte s off.toNat).toNat * 256 + (rxByte s (off.toNat + 1)).toNat ∧
      scaledUnsigned r (ks.extractLsb' 0 2) = (r.toNat : ℚ) / namedScale ks) ∧
  (∀ (off ks : Byte) (s : State),
    (ks &&& 0xFC#8 ≠ 0#8 → ∃ t, exec (.sdecU16 off ks) s = .next t ∧ FaultTaken 8#4 s t) ∧
    (ks &&& 0xFC#8 = 0#8 → RangeFaults (.sdecU16 off ks) 2 off s))

/-- R160: SDEC.I16 in range completes with the signed integer and the selector, whose exact quotient is the value;
otherwise it faults. -/
def Obligations.SdecI16Value : Prop :=
  (∀ (off ks : Byte) (s : State), ks &&& 0xFC#8 = 0#8 → s.rxValid = true → off.toNat + 2 ≤ s.rxLen.toNat →
    ∃ t r, exec (.sdecI16 off ks) s = .next t ∧ t.res = some r ∧ t.resK = some (ks.extractLsb' 0 2) ∧ Answered s t ∧
      (∀ u : Nat, u = (rxByte s off.toNat).toNat * 256 + (rxByte s (off.toNat + 1)).toNat →
        r.toInt = if u < 32768 then (u : Int) else (u : Int) - 65536) ∧
      scaledSigned r (ks.extractLsb' 0 2) = (r.toInt : ℚ) / namedScale ks) ∧
  (∀ (off ks : Byte) (s : State),
    (ks &&& 0xFC#8 ≠ 0#8 → ∃ t, exec (.sdecI16 off ks) s = .next t ∧ FaultTaken 8#4 s t) ∧
    (ks &&& 0xFC#8 = 0#8 → RangeFaults (.sdecI16 off ks) 2 off s))

/-- R161: SDEC.U32 in range completes with the unsigned 32-bit integer and the selector, whose exact quotient is the
value; otherwise it faults. -/
def Obligations.SdecU32Value : Prop :=
  (∀ (off ks : Byte) (s : State), ks &&& 0xFC#8 = 0#8 → s.rxValid = true → off.toNat + 4 ≤ s.rxLen.toNat →
    ∃ t r, exec (.sdecU32 off ks) s = .next t ∧ t.res = some r ∧ t.resK = some (ks.extractLsb' 0 2) ∧ Answered s t ∧
      r.toNat = (rxByte s off.toNat).toNat * 2 ^ 24 + (rxByte s (off.toNat + 1)).toNat * 2 ^ 16 +
        (rxByte s (off.toNat + 2)).toNat * 2 ^ 8 + (rxByte s (off.toNat + 3)).toNat ∧
      scaledUnsigned r (ks.extractLsb' 0 2) = (r.toNat : ℚ) / namedScale ks) ∧
  (∀ (off ks : Byte) (s : State),
    (ks &&& 0xFC#8 ≠ 0#8 → ∃ t, exec (.sdecU32 off ks) s = .next t ∧ FaultTaken 8#4 s t) ∧
    (ks &&& 0xFC#8 = 0#8 → RangeFaults (.sdecU32 off ks) 4 off s))

/-- The bytes a decode in range sees are bytes that a READ stored: with the buffers exact (entry 1), no free value (entry 2)
is ever read below `RX_LEN`. -/
def Obligations.DecodedBytesAreStored : Prop :=
  ∀ (s : State) (a : Nat), BuffersExact s → a < s.rxLen.toNat →
    ∃ b, Memory.read s.rxbuf a = some b ∧ rxByte s a = b

/-- R59, R156 (the spec's own inference): a decode touches neither buffer nor length nor valid flag nor input, and the same
decode repeated does the same again. -/
def Obligations.DecodesArePure : Prop :=
  ∀ (i : Instr) (s t : State), decodeRange i ≠ none → exec i s = .next t →
    Untouched s t ∧ exec i t = .next t

/-- R153, R55: a DEC.U32 is 65536 times the DEC.U16 at its offset plus the DEC.U16 two bytes on. -/
def Obligations.WideDecodeIsTwoNarrowOnes : Prop :=
  ∀ (off : Byte) (s : State), s.rxValid = true → off.toNat + 4 ≤ s.rxLen.toNat →
    ∃ t hi lo u h l, exec (.decU32 off) s = .next t ∧ t.res = some u ∧
      exec (.decU16 off) s = .next hi ∧ hi.res = some h ∧
      exec (.decU16 (off + 2#8)) s = .next lo ∧ lo.res = some l ∧
      u.toNat = 65536 * h.toNat + l.toNat

/-- R154 (the spec's own inference): at one offset, DEC.I16 = DEC.U16 - 65536 * RXBUF[off][7]. -/
def Obligations.SignedDecodeOfUnsigned : Prop :=
  ∀ (off : Byte) (s : State), s.rxValid = true → off.toNat + 2 ≤ s.rxLen.toNat →
    ∃ t u v w, exec (.decI16 off) s = .next t ∧ t.res = some v ∧ exec (.decU16 off) s = .next u ∧ u.res = some w ∧
      v.toInt = (w.toNat : Int) - 65536 * (if (rxByte s off.toNat).getLsbD 7 then 1 else 0)

/-- R158, R163: the constants are 10, 100, 200 and 1000, and a scaled value times its constant is the integer again. -/
def Obligations.ScalingIsExact : Prop :=
  (∀ k : BitVec 2, scaleConstant k = [10, 100, 200, 1000].getD k.toNat 0) ∧
  ∀ (r : Long) (k : BitVec 2), (scaleConstant k : ℚ) * scaledUnsigned r k = (r.toNat : ℚ) ∧
    (scaleConstant k : ℚ) * scaledSigned r k = (r.toInt : ℚ)
end

