-- ==== Sys2Proof/Laws/Memory.lean ====
section
/-! SUPPORT. The laws of the byte spaces: reading after a write, and that every memory operation keeps the canonical
form. -/

namespace Sys2Proof.Machine

@[simp] theorem read_nil (a : Nat) : Memory.read [] a = none := rfl

theorem read_write_same (a : Nat) (b : Byte) (m : Memory) : Memory.read (Memory.write a b m) a = some b := by
  induction m with
  | nil => simp [Memory.write, Memory.read]
  | cons c m ih =>
    unfold Memory.write
    split
    · simp [Memory.read]
    · split
      · simp [Memory.read]
      · rename_i h; simp [Memory.read, Ne.symm h, ih]

theorem read_write_other {a x : Nat} (b : Byte) (m : Memory) (h : x ≠ a) :
    Memory.read (Memory.write a b m) x = Memory.read m x := by
  induction m with
  | nil => simp [Memory.write, Memory.read, h.symm]
  | cons c m ih =>
    unfold Memory.write
    split
    · simp [Memory.read, h.symm]
    · split
      · rename_i h'; subst h'; simp [Memory.read, h.symm]
      · simp [Memory.read, ih]

/-- What every byte reads as after a write. -/
theorem read_write (a x : Nat) (b : Byte) (m : Memory) :
    Memory.read (Memory.write a b m) x = if x = a then some b else Memory.read m x := by
  split
  · subst_vars; exact read_write_same _ _ _
  · exact read_write_other _ _ ‹_›

/-- What every byte reads as after a store: the stored bytes inside, the old ones outside. -/
theorem read_store (bs : List Byte) : ∀ (a x : Nat) (m : Memory),
    Memory.read (Memory.store a bs m) x = if a ≤ x ∧ x < a + bs.length then bs[x - a]? else Memory.read m x := by
  induction bs with
  | nil => intro a x m; simp [Memory.store]
  | cons b bs ih =>
    intro a x m
    rw [Memory.store, ih, read_write, List.length_cons]
    by_cases hx : x = a
    · subst hx; simp
    · by_cases hin : a + 1 ≤ x ∧ x < a + 1 + bs.length
      · rw [if_pos hin, if_pos (by omega), show x - a = (x - (a + 1)) + 1 by omega, List.getElem?_cons_succ]
      · rw [if_neg hin, if_neg hx, if_neg (by omega)]

/-- What every byte reads as once the bytes from an address on are forgotten. -/
theorem read_forgetFrom (a x : Nat) (m : Memory) :
    Memory.read (Memory.forgetFrom a m) x = if x < a then Memory.read m x else none := by
  induction m with
  | nil => simp [Memory.forgetFrom]
  | cons c m ih =>
    unfold Memory.forgetFrom at ih ⊢
    rw [List.filter_cons]
    by_cases hc : c.1 < a
    · simp only [hc, decide_true, if_true, Memory.read, ih]
      by_cases hx : c.1 = x
      · simp [hx, hx ▸ hc]
      · simp [hx]
    · simp only [hc, decide_false, Bool.false_eq_true, if_false, Memory.read, ih]
      by_cases hx : c.1 = x
      · simp [hx ▸ hc]
      · simp [hx]

theorem wfAbove_of_le {lo lo' : Nat} {m : Memory} (h : lo' ≤ lo) (hm : Memory.wfAbove lo m = true) :
    Memory.wfAbove lo' m = true := by
  cases m with
  | nil => rfl
  | cons c m => simp only [Memory.wfAbove, Bool.and_eq_true, decide_eq_true_eq] at hm ⊢; exact ⟨by omega, hm.2⟩

theorem wfAbove_write {lo a : Nat} (b : Byte) {m : Memory} (ha : lo < a) (hm : Memory.wfAbove lo m = true) :
    Memory.wfAbove lo (Memory.write a b m) = true := by
  induction m generalizing lo with
  | nil => simp [Memory.write, Memory.wfAbove, ha]
  | cons c m ih =>
    simp only [Memory.wfAbove, Bool.and_eq_true, decide_eq_true_eq] at hm
    unfold Memory.write
    split
    · simp_all [Memory.wfAbove]
    · split
      · simp_all [Memory.wfAbove]
      · simp only [Memory.wfAbove, Bool.and_eq_true, decide_eq_true_eq]
        exact ⟨hm.1, ih (by omega) hm.2⟩

/-- A write keeps the canonical form. -/
theorem wf_write (a : Nat) (b : Byte) {m : Memory} (hm : Memory.wf m = true) :
    Memory.wf (Memory.write a b m) = true := by
  cases m with
  | nil => rfl
  | cons c m =>
    unfold Memory.write
    split
    · simp_all [Memory.wf, Memory.wfAbove]
    · split
      · simp_all [Memory.wf]
      · exact wfAbove_write b (by omega) hm

/-- A store keeps the canonical form. -/
theorem wf_store (bs : List Byte) : ∀ (a : Nat) {m : Memory}, Memory.wf m = true →
    Memory.wf (Memory.store a bs m) = true := by
  induction bs with
  | nil => intro a m hm; exact hm
  | cons b bs ih => intro a m hm; exact ih (a + 1) (wf_write a b hm)

theorem wfAbove_forgetFrom {lo : Nat} (a : Nat) {m : Memory} (hm : Memory.wfAbove lo m = true) :
    Memory.wfAbove lo (Memory.forgetFrom a m) = true := by
  induction m generalizing lo with
  | nil => rfl
  | cons c m ih =>
    simp only [Memory.wfAbove, Bool.and_eq_true, decide_eq_true_eq] at hm
    unfold Memory.forgetFrom at ih ⊢
    rw [List.filter_cons]
    split
    · simp only [Memory.wfAbove, Bool.and_eq_true, decide_eq_true_eq]; exact ⟨hm.1, ih hm.2⟩
    · exact ih (wfAbove_of_le (by omega) hm.2)

theorem wf_of_wfAbove {lo : Nat} {m : Memory} (hm : Memory.wfAbove lo m = true) : Memory.wf m = true := by
  cases m with
  | nil => rfl
  | cons c m => simp only [Memory.wfAbove, Bool.and_eq_true] at hm; exact hm.2

/-- Forgetting bytes keeps the canonical form. -/
theorem wf_forgetFrom (a : Nat) {m : Memory} (hm : Memory.wf m = true) :
    Memory.wf (Memory.forgetFrom a m) = true := by
  cases m with
  | nil => rfl
  | cons c m =>
    have h := wfAbove_forgetFrom a (lo := c.1) (m := m) hm
    unfold Memory.forgetFrom at h ⊢
    rw [List.filter_cons]
    split
    · exact h
    · exact wf_of_wfAbove h

/-- The memories of the state after reset are in canonical form. -/
theorem reset_wf : Memory.wf State.reset.txbuf = true ∧ Memory.wf State.reset.rxbuf = true := ⟨rfl, rfl⟩

end Sys2Proof.Machine
end

