-- ==== Sys2Proof/Laws/State.lean ====
section
/-! SUPPORT. One lemma per field per update of State, so that no proof unfolds a record update. -/

namespace Sys2Proof.Machine

@[simp] theorem raise_txbuf (f : FcuFault) (s : State) : (raise f s).txbuf = s.txbuf := rfl
@[simp] theorem raise_txLen (f : FcuFault) (s : State) : (raise f s).txLen = s.txLen := rfl
@[simp] theorem raise_rxbuf (f : FcuFault) (s : State) : (raise f s).rxbuf = s.rxbuf := rfl
@[simp] theorem raise_rxLen (f : FcuFault) (s : State) : (raise f s).rxLen = s.rxLen := rfl
@[simp] theorem raise_rxValid (f : FcuFault) (s : State) : (raise f s).rxValid = s.rxValid := rfl
@[simp] theorem raise_status (f : FcuFault) (s : State) : (raise f s).status = faultCode f := rfl
@[simp] theorem raise_fault (f : FcuFault) (s : State) : (raise f s).fault = true := rfl
@[simp] theorem raise_res (f : FcuFault) (s : State) : (raise f s).res = none := rfl
@[simp] theorem raise_resK (f : FcuFault) (s : State) : (raise f s).resK = none := rfl
@[simp] theorem raise_txOut (f : FcuFault) (s : State) : (raise f s).txOut = [] := rfl
@[simp] theorem raise_raw (f : FcuFault) (s : State) : (raise f s).raw = s.raw := rfl
@[simp] theorem raise_pending (f : FcuFault) (s : State) : (raise f s).pending = s.pending := rfl

@[simp] theorem finish_txbuf (r : Result) (v : Option Long) (k : Option (BitVec 2)) (s : State) : (finish r v k s).txbuf = s.txbuf := rfl
@[simp] theorem finish_txLen (r : Result) (v : Option Long) (k : Option (BitVec 2)) (s : State) : (finish r v k s).txLen = s.txLen := rfl
@[simp] theorem finish_rxbuf (r : Result) (v : Option Long) (k : Option (BitVec 2)) (s : State) : (finish r v k s).rxbuf = s.rxbuf := rfl
@[simp] theorem finish_rxLen (r : Result) (v : Option Long) (k : Option (BitVec 2)) (s : State) : (finish r v k s).rxLen = s.rxLen := rfl
@[simp] theorem finish_rxValid (r : Result) (v : Option Long) (k : Option (BitVec 2)) (s : State) : (finish r v k s).rxValid = s.rxValid := rfl
@[simp] theorem finish_status (r : Result) (v : Option Long) (k : Option (BitVec 2)) (s : State) : (finish r v k s).status = resultCode r := rfl
@[simp] theorem finish_fault (r : Result) (v : Option Long) (k : Option (BitVec 2)) (s : State) : (finish r v k s).fault = s.fault := rfl
@[simp] theorem finish_res (r : Result) (v : Option Long) (k : Option (BitVec 2)) (s : State) : (finish r v k s).res = v := rfl
@[simp] theorem finish_resK (r : Result) (v : Option Long) (k : Option (BitVec 2)) (s : State) : (finish r v k s).resK = k := rfl
@[simp] theorem finish_txOut (r : Result) (v : Option Long) (k : Option (BitVec 2)) (s : State) : (finish r v k s).txOut = [] := rfl
@[simp] theorem finish_raw (r : Result) (v : Option Long) (k : Option (BitVec 2)) (s : State) : (finish r v k s).raw = s.raw := rfl
@[simp] theorem finish_pending (r : Result) (v : Option Long) (k : Option (BitVec 2)) (s : State) : (finish r v k s).pending = s.pending := rfl

@[simp] theorem loadFrame_txbuf (frame : List Byte) (s : State) : (loadFrame frame s).txbuf = Memory.forgetFrom frame.length (Memory.store 0 frame s.txbuf) := rfl
@[simp] theorem loadFrame_txLen (frame : List Byte) (s : State) : (loadFrame frame s).txLen = BitVec.ofNat 5 frame.length := rfl
@[simp] theorem loadFrame_rxbuf (frame : List Byte) (s : State) : (loadFrame frame s).rxbuf = s.rxbuf := rfl
@[simp] theorem loadFrame_rxLen (frame : List Byte) (s : State) : (loadFrame frame s).rxLen = s.rxLen := rfl
@[simp] theorem loadFrame_rxValid (frame : List Byte) (s : State) : (loadFrame frame s).rxValid = s.rxValid := rfl
@[simp] theorem loadFrame_status (frame : List Byte) (s : State) : (loadFrame frame s).status = 0#4 := rfl
@[simp] theorem loadFrame_fault (frame : List Byte) (s : State) : (loadFrame frame s).fault = s.fault := rfl
@[simp] theorem loadFrame_res (frame : List Byte) (s : State) : (loadFrame frame s).res = none := rfl
@[simp] theorem loadFrame_resK (frame : List Byte) (s : State) : (loadFrame frame s).resK = none := rfl
@[simp] theorem loadFrame_txOut (frame : List Byte) (s : State) : (loadFrame frame s).txOut = frame := rfl
@[simp] theorem loadFrame_raw (frame : List Byte) (s : State) : (loadFrame frame s).raw = s.raw := rfl
@[simp] theorem loadFrame_pending (frame : List Byte) (s : State) : (loadFrame frame s).pending = s.pending := rfl

@[simp] theorem accept_txbuf (left raw : List Byte) (later : List HostStep) (s : State) : (accept left raw later s).txbuf = s.txbuf := rfl
@[simp] theorem accept_txLen (left raw : List Byte) (later : List HostStep) (s : State) : (accept left raw later s).txLen = s.txLen := rfl
@[simp] theorem accept_rxbuf (left raw : List Byte) (later : List HostStep) (s : State) : (accept left raw later s).rxbuf = s.rxbuf := rfl
@[simp] theorem accept_rxLen (left raw : List Byte) (later : List HostStep) (s : State) : (accept left raw later s).rxLen = s.rxLen := rfl
@[simp] theorem accept_rxValid (left raw : List Byte) (later : List HostStep) (s : State) : (accept left raw later s).rxValid = s.rxValid := rfl
@[simp] theorem accept_status (left raw : List Byte) (later : List HostStep) (s : State) : (accept left raw later s).status = s.status := rfl
@[simp] theorem accept_fault (left raw : List Byte) (later : List HostStep) (s : State) : (accept left raw later s).fault = s.fault := rfl
@[simp] theorem accept_res (left raw : List Byte) (later : List HostStep) (s : State) : (accept left raw later s).res = s.res := rfl
@[simp] theorem accept_resK (left raw : List Byte) (later : List HostStep) (s : State) : (accept left raw later s).resK = s.resK := rfl
@[simp] theorem accept_txOut (left raw : List Byte) (later : List HostStep) (s : State) : (accept left raw later s).txOut = s.txOut := rfl
@[simp] theorem accept_raw (left raw : List Byte) (later : List HostStep) (s : State) : (accept left raw later s).raw = raw := rfl
@[simp] theorem accept_pending (left raw : List Byte) (later : List HostStep) (s : State) : (accept left raw later s).pending = presentRest left later := rfl

@[simp] theorem readOk_txbuf (c : Cursor) (s : State) : (readOk c s).txbuf = s.txbuf := rfl
@[simp] theorem readOk_txLen (c : Cursor) (s : State) : (readOk c s).txLen = s.txLen := rfl
@[simp] theorem readOk_rxbuf (c : Cursor) (s : State) : (readOk c s).rxbuf = c.mem := rfl
@[simp] theorem readOk_rxLen (c : Cursor) (s : State) : (readOk c s).rxLen = BitVec.ofNat 8 c.len := rfl
@[simp] theorem readOk_rxValid (c : Cursor) (s : State) : (readOk c s).rxValid = true := rfl
@[simp] theorem readOk_status (c : Cursor) (s : State) : (readOk c s).status = 0#4 := rfl
@[simp] theorem readOk_fault (c : Cursor) (s : State) : (readOk c s).fault = s.fault := rfl
@[simp] theorem readOk_res (c : Cursor) (s : State) : (readOk c s).res = some (BitVec.ofNat 32 c.rp) := rfl
@[simp] theorem readOk_resK (c : Cursor) (s : State) : (readOk c s).resK = none := rfl
@[simp] theorem readOk_txOut (c : Cursor) (s : State) : (readOk c s).txOut = [] := rfl
@[simp] theorem readOk_raw (c : Cursor) (s : State) : (readOk c s).raw = s.raw.drop c.rp := rfl
@[simp] theorem readOk_pending (c : Cursor) (s : State) : (readOk c s).pending = s.pending := rfl

@[simp] theorem readError_txbuf (r : Result) (c : Cursor) (s : State) : (readError r c s).txbuf = s.txbuf := rfl
@[simp] theorem readError_txLen (r : Result) (c : Cursor) (s : State) : (readError r c s).txLen = s.txLen := rfl
@[simp] theorem readError_rxbuf (r : Result) (c : Cursor) (s : State) : (readError r c s).rxbuf = [] := rfl
@[simp] theorem readError_rxLen (r : Result) (c : Cursor) (s : State) : (readError r c s).rxLen = 0#8 := rfl
@[simp] theorem readError_rxValid (r : Result) (c : Cursor) (s : State) : (readError r c s).rxValid = false := rfl
@[simp] theorem readError_status (r : Result) (c : Cursor) (s : State) : (readError r c s).status = resultCode r := rfl
@[simp] theorem readError_fault (r : Result) (c : Cursor) (s : State) : (readError r c s).fault = s.fault := rfl
@[simp] theorem readError_res (r : Result) (c : Cursor) (s : State) : (readError r c s).res = some (BitVec.ofNat 32 c.rp) := rfl
@[simp] theorem readError_resK (r : Result) (c : Cursor) (s : State) : (readError r c s).resK = none := rfl
@[simp] theorem readError_txOut (r : Result) (c : Cursor) (s : State) : (readError r c s).txOut = [] := rfl
@[simp] theorem readError_raw (r : Result) (c : Cursor) (s : State) : (readError r c s).raw = s.raw.drop c.rp := rfl
@[simp] theorem readError_pending (r : Result) (c : Cursor) (s : State) : (readError r c s).pending = s.pending := rfl

@[simp] theorem applyReset_txbuf (later : List HostStep) : (applyReset later).txbuf = [] := rfl
@[simp] theorem applyReset_txLen (later : List HostStep) : (applyReset later).txLen = 0#5 := rfl
@[simp] theorem applyReset_rxbuf (later : List HostStep) : (applyReset later).rxbuf = [] := rfl
@[simp] theorem applyReset_rxLen (later : List HostStep) : (applyReset later).rxLen = 0#8 := rfl
@[simp] theorem applyReset_rxValid (later : List HostStep) : (applyReset later).rxValid = false := rfl
@[simp] theorem applyReset_status (later : List HostStep) : (applyReset later).status = 0#4 := rfl
@[simp] theorem applyReset_fault (later : List HostStep) : (applyReset later).fault = false := rfl
@[simp] theorem applyReset_res (later : List HostStep) : (applyReset later).res = none := rfl
@[simp] theorem applyReset_resK (later : List HostStep) : (applyReset later).resK = none := rfl
@[simp] theorem applyReset_txOut (later : List HostStep) : (applyReset later).txOut = [] := rfl
@[simp] theorem applyReset_raw (later : List HostStep) : (applyReset later).raw = [] := rfl
@[simp] theorem applyReset_pending (later : List HostStep) : (applyReset later).pending = later := rfl

@[simp] theorem cursorStart_mem : cursorStart.mem = [] := rfl
@[simp] theorem cursorStart_len : cursorStart.len = 0 := rfl
@[simp] theorem cursorStart_rp : cursorStart.rp = 0 := rfl
@[simp] theorem keep_mem (d0 d1 : Byte) (c : Cursor) : (c.keep d0 d1).mem = Memory.store c.len [d0, d1] c.mem := rfl
@[simp] theorem keep_len (d0 d1 : Byte) (c : Cursor) : (c.keep d0 d1).len = c.len + 2 := rfl
@[simp] theorem keep_rp (d0 d1 : Byte) (c : Cursor) : (c.keep d0 d1).rp = c.rp + 3 := rfl

end Sys2Proof.Machine
end

