-- ==== Sys2Proof/Laws/Ops.lean ====
section
/-! SUPPORT. For each shared operation, everything it can do, said once: the checks and outcomes of a decode, the loop
of READ and its end, the bytes of a frame once loaded, and the shape of a step. -/

namespace Sys2Proof.Machine

/-- Everything the common checks of a decode can answer (R150). -/
theorem decodeFault_cases (width : Nat) (off : Byte) (s : State) :
    (decodeFault width off s = some .bufferInvalid ∧ s.rxValid = false) ∨
    (decodeFault width off s = some (.offsetOutOfRange off) ∧ s.rxValid = true ∧ s.rxLen.toNat < off.toNat + width) ∨
    (decodeFault width off s = none ∧ s.rxValid = true ∧ off.toNat + width ≤ s.rxLen.toNat) := by
  unfold decodeFault
  cases hv : s.rxValid
  · exact .inl ⟨by simp, rfl⟩
  · by_cases hr : s.rxLen.toNat < off.toNat + width
    · exact .inr (.inl ⟨by simp [hr], rfl, hr⟩)
    · exact .inr (.inr ⟨by simp [hr], rfl, by omega⟩)

/-- Everything a decode can do: take one of its two faults, or deliver the value. -/
theorem decodeField_cases (width : Nat) (off : Byte) (value : State → Long) (k : Option (BitVec 2)) (s : State) :
    (s.rxValid = false ∧ decodeField width off value k s = raise .bufferInvalid s) ∨
    (s.rxValid = true ∧ s.rxLen.toNat < off.toNat + width ∧
      decodeField width off value k s = raise (.offsetOutOfRange off) s) ∨
    (s.rxValid = true ∧ off.toNat + width ≤ s.rxLen.toNat ∧
      decodeField width off value k s = finish .ok (some (value s)) k s) := by
  unfold decodeField
  obtain ⟨h, hv⟩ | ⟨h, hv, hr⟩ | ⟨h, hv, hr⟩ := decodeFault_cases width off s <;> simp only [h]
  · exact .inl ⟨hv, trivial⟩
  · exact .inr (.inl ⟨hv, hr, trivial⟩)
  · exact .inr (.inr ⟨hv, hr, trivial⟩)

/-- Everything a scaled decode can do. -/
theorem decodeScaled_cases (width : Nat) (off ks : Byte) (value : State → Long) (s : State) :
    (scaleReserved ks = true ∧ decodeScaled width off ks value s = raise .illegalOp s) ∨
    (scaleReserved ks = false ∧
      decodeScaled width off ks value s = decodeField width off value (some (scaleSelector ks)) s) := by
  unfold decodeScaled
  cases h : scaleReserved ks <;> simp

/-- The bytes of `TXBUF` after a BUILD: the frame, and nothing specified above it (R118). -/
theorem read_loadFrame (frame : List Byte) (s : State) (a : Nat) :
    Memory.read (loadFrame frame s).txbuf a = frame[a]? := by
  rw [loadFrame_txbuf, read_forgetFrom, read_store]
  by_cases h : a < frame.length <;> simp [h]

/-- A store of bytes one after the other is one store. -/
theorem store_append (bs cs : List Byte) : ∀ (a : Nat) (m : Memory),
    Memory.store a (bs ++ cs) m = Memory.store (a + bs.length) cs (Memory.store a bs m) := by
  induction bs with
  | nil => intro a m; rfl
  | cons b bs ih => intro a m; simp only [List.cons_append, Memory.store, ih, List.length_cons]; congr 1; omega

@[simp] theorem dataBytes_length (ws : List (Byte × Byte)) : (dataBytes ws).length = 2 * ws.length := by
  induction ws with
  | nil => rfl
  | cons w ws ih => simp_all [dataBytes, List.flatMap_cons]; omega

@[simp] theorem goodStream_length (ws : List (Byte × Byte)) : (goodStream ws).length = 3 * ws.length := by
  induction ws with
  | nil => rfl
  | cons w ws ih => simp_all [goodStream, goodGroup, List.flatMap_cons]; omega

/-- The cursor once these words have been kept. -/
def Cursor.after (ws : List (Byte × Byte)) (c : Cursor) : Cursor :=
  { mem := Memory.store c.len (dataBytes ws) c.mem, len := c.len + 2 * ws.length, rp := c.rp + 3 * ws.length }

@[simp] theorem after_nil (c : Cursor) : c.after [] = c := rfl

theorem after_cons (w : Byte × Byte) (ws : List (Byte × Byte)) (c : Cursor) :
    c.after (w :: ws) = (c.keep w.1 w.2).after ws := by
  have hm : Memory.store c.len (dataBytes (w :: ws)) c.mem
      = Memory.store (c.len + 2) (dataBytes ws) (Memory.store c.len [w.1, w.2] c.mem) :=
    store_append [w.1, w.2] (dataBytes ws) c.len c.mem
  simp only [Cursor.after, hm, keep_mem, keep_len, keep_rp, List.length_cons, Cursor.mk.injEq, true_and]
  exact ⟨by omega, by omega⟩

/-- The loop passes over well-formed groups that it reaches and that do not stop it. -/
theorem readLoop_goodStream {n : Nat} {z : Bool} (ws : List (Byte × Byte)) : ∀ {c : Cursor} {raw : List Byte},
    c.len + 2 * ws.length < n + 2 → (z = true → NoZeroWord ws) →
    readLoop n z (goodStream ws ++ raw) c = readLoop n z raw (c.after ws) := by
  induction ws with
  | nil => intro c raw _ _; simp [goodStream]
  | cons w ws ih =>
    intro c raw hlen hz
    rw [List.length_cons] at hlen
    have hw : ¬(z && w.1 == 0#8 && w.2 == 0#8) = true := by
      intro h
      simp only [Bool.and_eq_true, beq_iff_eq] at h
      exact hz h.1.1 w List.mem_cons_self (Prod.ext h.1.2 h.2)
    have hstep : readLoop n z (goodStream (w :: ws) ++ raw) c
        = readLoop n z (goodStream ws ++ raw) (c.keep w.1 w.2) := by
      simp only [goodStream, goodGroup, List.flatMap_cons, List.cons_append, List.nil_append, readLoop]
      rw [if_pos (by omega), if_pos trivial, if_neg hw]
    rw [hstep, ih (by rw [keep_len]; omega) (fun h v hv => hz h v (List.mem_cons_of_mem _ hv)), after_cons]

/-- The loop stops before a group once `n` bytes are collected. -/
theorem readLoop_full {n : Nat} {z : Bool} {c : Cursor} (raw : List Byte) (h : n ≤ c.len) :
    readLoop n z raw c = (.ended, c) := by
  unfold readLoop
  split
  · rw [if_neg (by omega)]
  · rfl

/-- The loop stops when fewer than three raw bytes are left. -/
theorem readLoop_short {n : Nat} {z : Bool} {c : Cursor} {raw : List Byte} (h : raw.length < 3) :
    readLoop n z raw c = (.ended, c) := by
  unfold readLoop
  split
  · simp at h; omega
  · rfl

/-- Everything the loop can do: it passes over some well-formed groups and then ends, or meets a wrong checksum, or
stores a zero word that stops it. -/
theorem readLoop_cases (n : Nat) (z : Bool) (raw : List Byte) (c : Cursor) :
    ∃ ws rest, raw = goodStream ws ++ rest ∧ (ws ≠ [] → c.len + 2 * ws.length < n + 2) ∧
      ((readLoop n z raw c = (.ended, c.after ws) ∧ (z = true → NoZeroWord ws) ∧
          (n ≤ c.len + 2 * ws.length ∨ rest.length < 3)) ∨
        (∃ d0 d1 chk tail, rest = d0 :: d1 :: chk :: tail ∧ crc8 d0 d1 ≠ chk ∧ c.len + 2 * ws.length < n ∧
          (z = true → NoZeroWord ws) ∧
          readLoop n z raw c = (.mismatch, { c.after ws with rp := (c.after ws).rp + 3 })) ∨
        (∃ front, ws = front ++ [(0#8, 0#8)] ∧ z = true ∧ NoZeroWord front ∧
          readLoop n z raw c = (.zeroStop, c.after ws))) := by
  have H : ∀ (k : Nat) (raw : List Byte) (c : Cursor), raw.length ≤ k → ∃ ws rest, raw = goodStream ws ++ rest ∧
      (ws ≠ [] → c.len + 2 * ws.length < n + 2) ∧
      ((readLoop n z raw c = (.ended, c.after ws) ∧ (z = true → NoZeroWord ws) ∧
          (n ≤ c.len + 2 * ws.length ∨ rest.length < 3)) ∨
        (∃ d0 d1 chk tail, rest = d0 :: d1 :: chk :: tail ∧ crc8 d0 d1 ≠ chk ∧ c.len + 2 * ws.length < n ∧
          (z = true → NoZeroWord ws) ∧
          readLoop n z raw c = (.mismatch, { c.after ws with rp := (c.after ws).rp + 3 })) ∨
        (∃ front, ws = front ++ [(0#8, 0#8)] ∧ z = true ∧ NoZeroWord front ∧
          readLoop n z raw c = (.zeroStop, c.after ws))) := by
    intro k
    induction k with
    | zero =>
      intro raw c hk
      refine ⟨[], raw, rfl, fun h => absurd rfl h, .inl ⟨?_, fun _ w hw => by simp at hw, .inr (by omega)⟩⟩
      exact readLoop_short (by omega)
    | succ k ih =>
      intro raw c hk
      have none_kept : (z = true → NoZeroWord []) := fun _ w hw => by simp at hw
      match raw, hk with
      | [], _ | [_], _ | [_, _], _ =>
        exact ⟨[], _, rfl, fun h => absurd rfl h, .inl ⟨rfl, none_kept, .inr (by simp)⟩⟩
      | d0 :: d1 :: chk :: tail, hk =>
        by_cases hlen : c.len < n
        · by_cases hc : crc8 d0 d1 = chk
          · by_cases hz : (z && d0 == 0#8 && d1 == 0#8) = true
            · have hz' := hz
              simp only [Bool.and_eq_true, beq_iff_eq] at hz'
              obtain ⟨⟨hz1, h0⟩, h1⟩ := hz'
              refine ⟨[(d0, d1)], tail, by simp [goodStream, goodGroup, hc], fun _ => by simp; omega,
                .inr (.inr ⟨[], by simp [h0, h1], hz1, fun w hw => by simp at hw, ?_⟩)⟩
              rw [after_cons, after_nil, readLoop, if_pos hlen, if_pos hc, if_pos hz]
            · have hstep : readLoop n z (d0 :: d1 :: chk :: tail) c = readLoop n z tail (c.keep d0 d1) := by
                rw [readLoop, if_pos hlen, if_pos hc, if_neg hz]
              have hw : z = true → (d0, d1) ≠ (0#8, 0#8) := by
                intro h heq
                simp only [Prod.mk.injEq] at heq
                exact hz (by simp [h, heq.1, heq.2])
              obtain ⟨ws, rest, hraw, hbound, hcase⟩ := ih tail (c.keep d0 d1) (by simp at hk; omega)
              rw [hstep]
              simp only [keep_len, ← after_cons (d0, d1) ws c] at hbound hcase
              have hb : c.len + 2 * (ws.length + 1) < n + 2 := by
                cases ws with
                | nil => simp; omega
                | cons w ws => have := hbound (by simp); simp at this ⊢; omega
              refine ⟨(d0, d1) :: ws, rest, by simp [goodStream, goodGroup, hc, hraw], fun _ => hb, ?_⟩
              have hcons : ∀ vs, (z = true → NoZeroWord vs) → z = true → NoZeroWord ((d0, d1) :: vs) := by
                intro vs h hz1 v hv
                rcases List.mem_cons.mp hv with rfl | hv
                · exact hw hz1
                · exact h hz1 v hv
              obtain ⟨h1, h2, h3⟩ | ⟨e0, e1, e, tl, h1, h2, h3, h4, h5⟩ | ⟨front, h1, h2, h3, h4⟩ := hcase
              · exact .inl ⟨h1, hcons ws h2, by rw [List.length_cons]; omega⟩
              · exact .inr (.inl ⟨e0, e1, e, tl, h1, h2, by rw [List.length_cons]; omega, hcons ws h4, h5⟩)
              · exact .inr (.inr ⟨(d0, d1) :: front, by rw [h1]; rfl, h2, hcons front (fun _ => h3) h2, h4⟩)
          · refine ⟨[], _, rfl, fun h => absurd rfl h,
              .inr (.inl ⟨d0, d1, chk, tail, rfl, hc, by simpa using hlen, none_kept, ?_⟩)⟩
            rw [readLoop, if_pos hlen, if_neg hc, after_nil]
        · exact ⟨[], _, rfl, fun h => absurd rfl h, .inl ⟨readLoop_full _ (by omega), none_kept,
            .inl (by simpa using hlen)⟩⟩
  exact H raw.length raw c le_rfl

/-- What R6 says of `RX_MAX`, whichever size the machine has. -/
theorem rxMax_bounds : 16 ≤ Config.rxMax ∧ Config.rxMax ≤ 254 ∧ Config.rxMax % 2 = 0 := by
  unfold Config.rxMax
  have := Config.rxMaxChoice.isLt
  omega

/-- A READ that passes its operand check runs the loop over the raw list. -/
theorem exec_read {n fl : Byte} {s : State} (h : ReadOperandsOk n fl) :
    exec (.read n fl) s = .next (readEnd n.toNat (readLoop n.toNat (stopFlag fl) s.raw cursorStart) s) := by
  simp [exec, execRead, readReserved, h.1, h.2]

/-- Bytes stored from address 0 are held. -/
theorem holds_store (bs : List Byte) (m : Memory) : Holds (Memory.store 0 bs m) bs := by
  intro i hi
  rw [read_store]
  simp [hi]

/-- Everything READ can do once its operands are checked: end Ok with the data of well-formed groups, an even number of
bytes, at least 2 and at most `n` + 1; or end in an error result. -/
theorem readEnd_cases (n : Nat) (z : Bool) (s : State) :
    (∃ ws tail, s.raw = goodStream ws ++ tail ∧ ws ≠ [] ∧ 2 * ws.length < n + 2 ∧
        (2 * ws.length = n ∨ (z = true ∧ ws.getLast? = some (0#8, 0#8))) ∧
        readEnd n (readLoop n z s.raw cursorStart) s = readOk (cursorStart.after ws) s) ∨
      (∃ r c, r ≠ .ok ∧ readEnd n (readLoop n z s.raw cursorStart) s = readError r c s) := by
  obtain ⟨ws, rest, hraw, hb, ⟨h, _, _⟩ | ⟨d0, d1, chk, tail, _, _, _, _, h⟩ | ⟨front, hws, hz, _, h⟩⟩ :=
    readLoop_cases n z s.raw cursorStart
  · by_cases h0 : ws = []
    · refine .inr ⟨.noData, cursorStart, by decide, ?_⟩
      simp only [readEnd, h, h0, after_nil, cursorStart_len, if_true]
    · have hlen : (cursorStart.after ws).len = 2 * ws.length := by simp [Cursor.after]
      have hpos : 0 < ws.length := List.length_pos_iff.mpr h0
      by_cases hn : 2 * ws.length = n
      · refine .inl ⟨ws, rest, hraw, h0, by omega, .inl hn, ?_⟩
        simp only [readEnd, h, hlen]
        rw [if_neg (by omega), if_pos hn]
      · refine .inr ⟨.lengthMismatch, cursorStart.after ws, by decide, ?_⟩
        simp only [readEnd, h, hlen]
        rw [if_neg (by omega), if_neg hn]
  · refine .inr ⟨.checksumMismatch, { cursorStart.after ws with rp := (cursorStart.after ws).rp + 3 }, by decide, ?_⟩
    simp only [readEnd, h]
  · refine .inl ⟨ws, rest, hraw, by simp [hws], by simpa using hb (by simp [hws]), .inr ⟨hz, by simp [hws]⟩, ?_⟩
    simp only [readEnd, h]

/-- Everything an operation can do: take a fault, answer Ok and write nothing else, load a frame of one of the six
lengths, or be a READ that ends. -/
theorem exec_cases {i : Instr} {s t : State} (h : exec i s = .next t) :
    (∃ f, t = raise f s) ∨ (∃ v k, t = finish .ok v k s) ∨
      (∃ frame, isBuild i = true ∧ frame.length ∈ [2, 5, 8, 11, 13, 20] ∧ t = loadFrame frame s) ∨
      (∃ n fl, i = .read n fl ∧ n.toNat ≤ Config.rxMax ∧
        t = readEnd n.toNat (readLoop n.toNat (stopFlag fl) s.raw cursorStart) s) := by
  have field : ∀ width off value k, decodeField width off value k s = t →
      (∃ f, t = raise f s) ∨ (∃ v k, t = finish .ok v k s) := by
    intro width off value k h
    obtain ⟨_, e⟩ | ⟨_, _, e⟩ | ⟨_, _, e⟩ := decodeField_cases width off value k s <;> rw [e] at h
    · exact .inl ⟨_, h.symm⟩
    · exact .inl ⟨_, h.symm⟩
    · exact .inr ⟨_, _, h.symm⟩
  have scaled : ∀ width off ks value, decodeScaled width off ks value s = t →
      (∃ f, t = raise f s) ∨ (∃ v k, t = finish .ok v k s) := by
    intro width off ks value h
    obtain ⟨_, e⟩ | ⟨_, e⟩ := decodeScaled_cases width off ks value s <;> rw [e] at h
    · exact .inl ⟨_, h.symm⟩
    · exact field _ _ _ _ h
  have widen : ∀ {P : Prop}, ((∃ f, t = raise f s) ∨ (∃ v k, t = finish .ok v k s)) →
      (∃ f, t = raise f s) ∨ (∃ v k, t = finish .ok v k s) ∨ P := fun h => h.elim .inl fun h => .inr (.inl h)
  cases i with
  | crc8 | crcchk | reqlen => exact .inr (.inl ⟨_, _, (Host.Outcome.next.inj h).symm⟩)
  | buildNone | buildS16 | buildS32 | buildTcomp | buildTune | buildBlob =>
    exact .inr (.inr (.inl ⟨_, rfl, by simp [encodeFields, fieldGroup, scalarFields, blobFrame],
      (Host.Outcome.next.inj h).symm⟩))
  | read n fl =>
    simp only [exec, execRead] at h
    split_ifs at h with h1 h2
    · exact .inl ⟨_, (Host.Outcome.next.inj h).symm⟩
    · exact .inr (.inr (.inr ⟨n, fl, rfl, h2, (Host.Outcome.next.inj h).symm⟩))
    · exact .inl ⟨_, (Host.Outcome.next.inj h).symm⟩
  | decU16 | decI16 | decU32 => exact widen (field _ _ _ _ (Host.Outcome.next.inj h))
  | sdecU16 | sdecI16 | sdecU32 => exact widen (scaled _ _ _ _ (Host.Outcome.next.inj h))

/-- Everything a step can do. -/
theorem step_cases {s t : State} (h : step s = .next t) :
    (s.pending = [] ∧ t = s) ∨
    (∃ later, s.pending = .reset :: later ∧ t = applyReset later) ∨
    (∃ d raw later opc left, s.pending = .op d raw :: later ∧ decode d = .reserved opc left ∧
      t = raise .illegalOp (accept left raw later s)) ∨
    (∃ d raw later i left, s.pending = .op d raw :: later ∧ decode d = .instr i left ∧
      exec i (accept left raw later s) = .next t) := by
  unfold step at h
  split at h
  · exact .inl ⟨‹_›, by simpa using h.symm⟩
  · exact .inr (.inl ⟨_, ‹_›, by simpa using h.symm⟩)
  · split at h
    · simp at h
    · exact .inr (.inr (.inl ⟨_, _, _, _, _, ‹_›, ‹_›, by simpa using h.symm⟩))
    · exact .inr (.inr (.inr ⟨_, _, _, _, _, ‹_›, ‹_›, h⟩))

end Sys2Proof.Machine
end

