-- ==== Sys2Proof/Laws/PerInstr.lean ====
section
/-! SUPPORT. What holds of every operation, one lemma a constructor. -/

namespace Sys2Proof.Laws.Opcode

/-- An operation's code is no reserved one (R85, R86): its descriptor is longer than one byte, and a byte string that
begins with it decodes to an operation or is not complete. -/
def Statement (i : Instr) : Prop :=
  1 < descriptorLength (opcode i) ∧ ∀ ops opc left, decode (opcode i :: ops) ≠ .reserved opc left

theorem decodeW_ne_reserved (mk : Word → Instr) (ops : List Byte) (opc : Byte) (left : List Byte) :
    decodeW mk ops ≠ .reserved opc left := by
  unfold decodeW; split <;> simp

theorem decodeWC_ne_reserved (mk : Word → Byte → Instr) (ops : List Byte) (opc : Byte) (left : List Byte) :
    decodeWC mk ops ≠ .reserved opc left := by
  unfold decodeWC; split <;> simp

theorem decodeB0_ne_reserved (mk : Word → Instr) (ops : List Byte) (opc : Byte) (left : List Byte) :
    decodeB0 mk ops ≠ .reserved opc left := by
  unfold decodeB0; split <;> simp

theorem decodeB1_ne_reserved (mk : Word → Word → Instr) (ops : List Byte) (opc : Byte) (left : List Byte) :
    decodeB1 mk ops ≠ .reserved opc left := by
  unfold decodeB1; split <;> simp

theorem decodeB2_ne_reserved (mk : Word → Long → Instr) (ops : List Byte) (opc : Byte) (left : List Byte) :
    decodeB2 mk ops ≠ .reserved opc left := by
  unfold decodeB2; split <;> simp

theorem decodeB3_ne_reserved (mk : Word → Word → Word → Word → Instr) (ops : List Byte) (opc : Byte) (left : List Byte) :
    decodeB3 mk ops ≠ .reserved opc left := by
  unfold decodeB3; split <;> simp

theorem decodeB6_ne_reserved (mk : Word → Word → Word → Word → Word → Word → Word → Instr) (ops : List Byte) (opc : Byte) (left : List Byte) :
    decodeB6 mk ops ≠ .reserved opc left := by
  unfold decodeB6; split <;> simp

theorem decodeBB_ne_reserved (mk : Word → Byte → Byte → Byte → Byte → Byte → Byte → Byte → Byte → Instr) (ops : List Byte) (opc : Byte) (left : List Byte) :
    decodeBB mk ops ≠ .reserved opc left := by
  unfold decodeBB; split <;> simp

theorem decodeN_ne_reserved (mk : Byte → Instr) (ops : List Byte) (opc : Byte) (left : List Byte) :
    decodeN mk ops ≠ .reserved opc left := by
  unfold decodeN; split <;> simp

theorem decodeNZ_ne_reserved (mk : Byte → Byte → Instr) (ops : List Byte) (opc : Byte) (left : List Byte) :
    decodeNZ mk ops ≠ .reserved opc left := by
  unfold decodeNZ; split <;> simp

theorem decodeO_ne_reserved (mk : Byte → Instr) (ops : List Byte) (opc : Byte) (left : List Byte) :
    decodeO mk ops ≠ .reserved opc left := by
  unfold decodeO; split <;> simp

theorem decodeOK_ne_reserved (mk : Byte → Byte → Instr) (ops : List Byte) (opc : Byte) (left : List Byte) :
    decodeOK mk ops ≠ .reserved opc left := by
  unfold decodeOK; split <;> simp

theorem crc8 (w : Word) : Statement (.crc8 w) :=
  ⟨(by decide : 1 < 3), fun ops opc left => decodeW_ne_reserved .crc8 ops opc left⟩

theorem crcchk (w : Word) (c : Byte) : Statement (.crcchk w c) :=
  ⟨(by decide : 1 < 4), fun ops opc left => decodeWC_ne_reserved .crcchk ops opc left⟩

theorem buildNone (cmd : Word) : Statement (.buildNone cmd) :=
  ⟨(by decide : 1 < 3), fun ops opc left => decodeB0_ne_reserved .buildNone ops opc left⟩

theorem buildS16 (cmd : Word) (v : Word) : Statement (.buildS16 cmd v) :=
  ⟨(by decide : 1 < 5), fun ops opc left => decodeB1_ne_reserved .buildS16 ops opc left⟩

theorem buildS32 (cmd : Word) (v : Long) : Statement (.buildS32 cmd v) :=
  ⟨(by decide : 1 < 7), fun ops opc left => decodeB2_ne_reserved .buildS32 ops opc left⟩

theorem buildTcomp (cmd : Word) (f0 : Word) (f1 : Word) (f2 : Word) : Statement (.buildTcomp cmd f0 f1 f2) :=
  ⟨(by decide : 1 < 9), fun ops opc left => decodeB3_ne_reserved .buildTcomp ops opc left⟩

theorem buildTune (cmd : Word) (f0 : Word) (f1 : Word) (f2 : Word) (f3 : Word) (f4 : Word) (f5 : Word) : Statement (.buildTune cmd f0 f1 f2 f3 f4 f5) :=
  ⟨(by decide : 1 < 15), fun ops opc left => decodeB6_ne_reserved .buildTune ops opc left⟩

theorem buildBlob (cmd : Word) (b0 : Byte) (b1 : Byte) (b2 : Byte) (b3 : Byte) (b4 : Byte) (b5 : Byte) (b6 : Byte) (b7 : Byte) : Statement (.buildBlob cmd b0 b1 b2 b3 b4 b5 b6 b7) :=
  ⟨(by decide : 1 < 11), fun ops opc left => decodeBB_ne_reserved .buildBlob ops opc left⟩

theorem reqlen (n : Byte) : Statement (.reqlen n) :=
  ⟨(by decide : 1 < 2), fun ops opc left => decodeN_ne_reserved .reqlen ops opc left⟩

theorem read (n : Byte) (fl : Byte) : Statement (.read n fl) :=
  ⟨(by decide : 1 < 3), fun ops opc left => decodeNZ_ne_reserved .read ops opc left⟩

theorem decU16 (off : Byte) : Statement (.decU16 off) :=
  ⟨(by decide : 1 < 2), fun ops opc left => decodeO_ne_reserved .decU16 ops opc left⟩

theorem decI16 (off : Byte) : Statement (.decI16 off) :=
  ⟨(by decide : 1 < 2), fun ops opc left => decodeO_ne_reserved .decI16 ops opc left⟩

theorem decU32 (off : Byte) : Statement (.decU32 off) :=
  ⟨(by decide : 1 < 2), fun ops opc left => decodeO_ne_reserved .decU32 ops opc left⟩

theorem sdecU16 (off : Byte) (ks : Byte) : Statement (.sdecU16 off ks) :=
  ⟨(by decide : 1 < 3), fun ops opc left => decodeOK_ne_reserved .sdecU16 ops opc left⟩

theorem sdecI16 (off : Byte) (ks : Byte) : Statement (.sdecI16 off ks) :=
  ⟨(by decide : 1 < 3), fun ops opc left => decodeOK_ne_reserved .sdecI16 ops opc left⟩

theorem sdecU32 (off : Byte) (ks : Byte) : Statement (.sdecU32 off ks) :=
  ⟨(by decide : 1 < 3), fun ops opc left => decodeOK_ne_reserved .sdecU32 ops opc left⟩

end Sys2Proof.Laws.Opcode
end

