-- ==== Sys2Proof/Machine/Assembler.lean ====
section
/-! DEFINITION. The assembler syntax and the pseudo-operations (spec R90, R91), over lists of characters. Nothing in
the machine uses it: the FCU reads descriptors. -/

namespace Sys2Proof.Machine

/-- `READ.DATA n` is `READ n, 0` (R91). -/
def asmReadData (n : Byte) : Instr := .read n 0#8

/-- `READ.TEXT n` is `READ n, 1` (R91). -/
def asmReadText (n : Byte) : Instr := .read n 1#8

/-- `VALIDATE w, c` is `CRCCHK w, c` (R91). -/
def asmValidate (w : Word) (c : Byte) : Instr := .crcchk w c

/-- `trunc_16` of a signed value: its two's complement pattern (R11, R83). -/
def trunc16 (v : Int) : Word := BitVec.ofInt 16 v

/-- `BUILD.I16 cmd, s` is `BUILD.S16 cmd, trunc_16(s)` (R91). -/
def asmBuildI16 (cmd : Word) (v : Int) : Instr := .buildS16 cmd (trunc16 v)

/-- "k is 10, 100, 200 or 1000; the assembler emits ks = 0, 1, 2, 3" (R90). -/
def asmScale (k : Int) : Option Byte :=
  if k = 10 then some 0#8
  else if k = 100 then some 1#8
  else if k = 200 then some 2#8
  else if k = 1000 then some 3#8
  else none

/-- The value of a hexadecimal digit. -/
def hexDigit (c : Char) : Option Nat :=
  if '0'.toNat ≤ c.toNat ∧ c.toNat ≤ '9'.toNat then some (c.toNat - '0'.toNat)
  else if 'A'.toNat ≤ c.toNat ∧ c.toNat ≤ 'F'.toNat then some (c.toNat - 'A'.toNat + 10)
  else if 'a'.toNat ≤ c.toNat ∧ c.toNat ≤ 'f'.toNat then some (c.toNat - 'a'.toNat + 10)
  else none

/-- Digits of a base, after the value of those already read. -/
def readDigits (base : Nat) : Nat → List Char → Option Nat
  | acc, [] => some acc
  | acc, c :: cs =>
    match hexDigit c with
    | none => none
    | some d => if d < base then readDigits base (acc * base + d) cs else none

/-- At least one digit of a base. -/
def readNatural (base : Nat) (cs : List Char) : Option Nat :=
  match cs with
  | [] => none
  | c :: rest => readDigits base 0 (c :: rest)

/-- "numbers in decimal or `0x` hexadecimal, a signed field as a decimal with a minus sign" (R90). -/
def readNumber (cs : List Char) : Option Int :=
  match cs with
  | '0' :: 'x' :: rest => (readNatural 16 rest).map fun n => (n : Int)
  | '-' :: rest => (readNatural 10 rest).map fun n => -(n : Int)
  | rest => (readNatural 10 rest).map fun n => (n : Int)

/-- The text before a character, and the text after it if the character occurs. -/
def cutAt (stop : Char) : List Char → List Char × Option (List Char)
  | [] => ([], none)
  | c :: cs =>
    if c = stop then ([], some cs)
    else
      let r := cutAt stop cs
      (c :: r.1, r.2)

/-- A line without its comment, which starts at a semicolon (R90's listing). -/
def dropComment (line : List Char) : List Char := (cutAt ';' line).1

/-- The words of a text that the character `sep` and blanks separate; `cur` is the word being read, backwards. -/
def splitWords (sep : Char) : List Char → List Char → List (List Char)
  | cur, [] => if cur = [] then [] else [cur.reverse]
  | cur, c :: cs =>
    if c = ' ' ∨ c = sep then
      if cur = [] then splitWords sep [] cs else cur.reverse :: splitWords sep [] cs
    else splitWords sep (c :: cur) cs

/-- All numbers of a list of words. -/
def readNumbers : List (List Char) → Option (List Int)
  | [] => some []
  | w :: ws =>
    match readNumber w, readNumbers ws with
    | some v, some vs => some (v :: vs)
    | _, _ => none

/-- An unsigned operand of `w` bits (entry 18: one that does not fit is refused). -/
def asmUnsigned (w : Nat) (v : Int) : Option (BitVec w) :=
  if 0 ≤ v ∧ v < 2 ^ w then some (BitVec.ofInt w v) else none

/-- A 16-bit field operand: an unsigned value, or a signed one as its pattern (R83). -/
def asmField (v : Int) : Option Word := if -32768 ≤ v ∧ v ≤ 65535 then some (trunc16 v) else none

/-- A mnemonic of R90 or R91 with its operand values, as an operation. -/
def assembleOp (mnemonic : List Char) (args : List Int) : Option Instr :=
  if mnemonic = "CRC8".toList then
    match args with
    | [w] => (asmUnsigned 16 w).map .crc8
    | _ => none
  else if mnemonic = "CRCCHK".toList ∨ mnemonic = "VALIDATE".toList then
    match args with
    | [w, c] => do return asmValidate (← asmUnsigned 16 w) (← asmUnsigned 8 c)
    | _ => none
  else if mnemonic = "BUILD.NONE".toList then
    match args with
    | [cmd] => (asmUnsigned 16 cmd).map .buildNone
    | _ => none
  else if mnemonic = "BUILD.S16".toList then
    match args with
    | [cmd, v] => do return .buildS16 (← asmUnsigned 16 cmd) (← asmField v)
    | _ => none
  else if mnemonic = "BUILD.I16".toList then
    match args with
    | [cmd, v] =>
      if -32768 ≤ v ∧ v ≤ 32767 then (asmUnsigned 16 cmd).map fun c => asmBuildI16 c v else none
    | _ => none
  else if mnemonic = "BUILD.S32".toList then
    match args with
    | [cmd, v] => do return .buildS32 (← asmUnsigned 16 cmd) (← asmUnsigned 32 v)
    | _ => none
  else if mnemonic = "BUILD.TCOMP".toList then
    match args with
    | [cmd, f0, f1, f2] => do
      return .buildTcomp (← asmUnsigned 16 cmd) (← asmField f0) (← asmField f1) (← asmField f2)
    | _ => none
  else if mnemonic = "BUILD.TUNE".toList then
    match args with
    | [cmd, f0, f1, f2, f3, f4, f5] => do
      return .buildTune (← asmUnsigned 16 cmd) (← asmField f0) (← asmField f1) (← asmField f2) (← asmField f3)
        (← asmField f4) (← asmField f5)
    | _ => none
  else if mnemonic = "BUILD.BLOB".toList then
    match args with
    | [cmd, b0, b1, b2, b3, b4, b5, b6, b7] => do
      return .buildBlob (← asmUnsigned 16 cmd) (← asmUnsigned 8 b0) (← asmUnsigned 8 b1) (← asmUnsigned 8 b2)
        (← asmUnsigned 8 b3) (← asmUnsigned 8 b4) (← asmUnsigned 8 b5) (← asmUnsigned 8 b6) (← asmUnsigned 8 b7)
    | _ => none
  else if mnemonic = "REQLEN".toList then
    match args with
    | [n] => (asmUnsigned 8 n).map .reqlen
    | _ => none
  else if mnemonic = "READ".toList then
    match args with
    | [n, z] => do
      let b ← asmUnsigned 8 n
      if z = 0 then return asmReadData b else if z = 1 then return asmReadText b else none
    | _ => none
  else if mnemonic = "READ.DATA".toList then
    match args with
    | [n] => (asmUnsigned 8 n).map asmReadData
    | _ => none
  else if mnemonic = "READ.TEXT".toList then
    match args with
    | [n] => (asmUnsigned 8 n).map asmReadText
    | _ => none
  else if mnemonic = "DEC.U16".toList then
    match args with
    | [off] => (asmUnsigned 8 off).map .decU16
    | _ => none
  else if mnemonic = "DEC.I16".toList then
    match args with
    | [off] => (asmUnsigned 8 off).map .decI16
    | _ => none
  else if mnemonic = "DEC.U32".toList then
    match args with
    | [off] => (asmUnsigned 8 off).map .decU32
    | _ => none
  else if mnemonic = "SDEC.U16".toList then
    match args with
    | [off, k] => do return .sdecU16 (← asmUnsigned 8 off) (← asmScale k)
    | _ => none
  else if mnemonic = "SDEC.I16".toList then
    match args with
    | [off, k] => do return .sdecI16 (← asmUnsigned 8 off) (← asmScale k)
    | _ => none
  else if mnemonic = "SDEC.U32".toList then
    match args with
    | [off, k] => do return .sdecU32 (← asmUnsigned 8 off) (← asmScale k)
    | _ => none
  else none

/-- One line of a program: "mnemonic then operands separated by commas" (R90). -/
def assembleLine (line : List Char) : Option Instr :=
  match splitWords ',' [] (dropComment line) with
  | [] => none
  | m :: ops =>
    match readNumbers ops with
    | some args => assembleOp m args
    | none => none

/-- All values as bytes. -/
def readBytes : List Int → Option (List Byte)
  | [] => some []
  | v :: vs =>
    match asmUnsigned 8 v, readBytes vs with
    | some b, some bs => some (b :: bs)
    | _, _ => none

/-- The line of a READ's raw byte list, `raw = [..]` (R90). -/
def assembleRaw (line : List Char) : Option (List Byte) :=
  match cutAt '[' (dropComment line) with
  | (front, some inside) =>
    if splitWords '=' [] front = ["raw".toList] then
      match cutAt ']' inside with
      | (items, some _) =>
        match readNumbers (splitWords ',' [] items) with
        | some vs => readBytes vs
        | none => none
      | (_, none) => none
    else none
  | (_, none) => none

/-- A program: one operation a line, "the raw byte list is written on the next line" after a READ (R90); an operation
without such a line gets an empty list. The host steps that issue the operations' descriptors. -/
def assemble : List (List Char) → Option (List HostStep)
  | [] => some []
  | [line] => (assembleLine line).map fun i => [.op (encode i) []]
  | line :: next :: more =>
    match assembleLine line, assembleRaw next with
    | some i, some raw => (assemble more).map fun p => .op (encode i) raw :: p
    | some i, none => (assemble (next :: more)).map fun p => .op (encode i) [] :: p
    | none, _ => none

end Sys2Proof.Machine
end

