-- ==== Sys2Proof/Tests/Slice0.lean ====
section
/-! SUPPORT. Tests on small states, their expected values from the vectors of spec/95_test_vectors.md, and for each
statement with hypotheses a state and operands that meet them. -/

namespace Sys2Proof.Tests

open Sys2Proof.Machine

set_option maxRecDepth 20000

/-- The state after reset with a raw byte list handed over. -/
def handed (raw : List Byte) : State := { State.reset with raw := raw }

/-- The state after reset with these bytes received and valid. -/
def received (bs : List Byte) : State :=
  { State.reset with rxbuf := Memory.store 0 bs [], rxLen := BitVec.ofNat 8 bs.length, rxValid := true }

/-- Buffer A of V18. -/
def bufferA : State := received [0x03#8, 0xE8#8, 0x07#8, 0xD0#8, 0xFF#8, 0x38#8]

/-- Buffer B of V18. -/
def bufferB : State := received [0x80#8, 0x00#8, 0x7F#8, 0xFF#8, 0xFF#8, 0xFF#8]

/-- A full valid buffer of 16 bytes, the smallest `RX_MAX`. -/
def bufferFull : State := received (List.replicate 16 0x5A#8)

/-- The state a step or an operation answers. -/
def after (o : Host.Outcome State Fault Refusal) : Option State :=
  match o with
  | .next t => some t
  | .fault _ => none
  | .refused _ => none

/-! ## Well-formedness: an ill-formed term for each check -/

theorem test_wf_read : (Instr.read 4#8 1#8).wf = true ∧ (Instr.read 4#8 2#8).wf = false ∧ (Instr.read 4#8 0x80#8).wf = false := by
  decide

theorem test_wf_sdecU16 : (Instr.sdecU16 0#8 3#8).wf = true ∧ (Instr.sdecU16 0#8 4#8).wf = false := by decide

theorem test_wf_sdecI16 : (Instr.sdecI16 0#8 3#8).wf = true ∧ (Instr.sdecI16 0#8 0xFF#8).wf = false := by decide

theorem test_wf_sdecU32 : (Instr.sdecU32 0#8 0#8).wf = true ∧ (Instr.sdecU32 0#8 0x40#8).wf = false := by decide

/-! ## Decoding: each constructor's descriptor, written out from R80 and R85 (the vectors' descriptor bytes) -/

theorem test_decode_crc8 : decode [0x01#8, 0xBE#8, 0xEF#8] = .instr (.crc8 0xBEEF#16) [] := by decide

theorem test_decode_crcchk : decode [0x02#8, 0xBE#8, 0xEF#8, 0x92#8] = .instr (.crcchk 0xBEEF#16 0x92#8) [] := by decide

theorem test_decode_buildNone : decode [0x10#8, 0x80#8, 0x04#8] = .instr (.buildNone 0x8004#16) [] := by decide

theorem test_decode_buildS16 : decode [0x11#8, 0x12#8, 0x34#8, 0x00#8, 0x02#8] = .instr (.buildS16 0x1234#16 0x0002#16) [] := by
  decide

theorem test_decode_buildS32 :
    decode [0x12#8, 0x80#8, 0x04#8, 0x00#8, 0x09#8, 0x3A#8, 0x80#8] = .instr (.buildS32 0x8004#16 604800#32) [] := by decide

theorem test_decode_buildTcomp :
    decode [0x13#8, 0x12#8, 0x34#8, 0xFF#8, 0x38#8, 0xFF#8, 0xFF#8, 0x7F#8, 0xFF#8] =
      .instr (.buildTcomp 0x1234#16 0xFF38#16 0xFFFF#16 0x7FFF#16) [] := by decide

theorem test_decode_buildTune :
    decode [0x16#8, 0x12#8, 0x34#8, 0x00#8, 0x64#8, 0x00#8, 0x0C#8, 0x00#8, 0x0D#8, 0x00#8, 0xB4#8, 0x00#8, 0x32#8,
        0x00#8, 0xE6#8] =
      .instr (.buildTune 0x1234#16 0x0064#16 0x000C#16 0x000D#16 0x00B4#16 0x0032#16 0x00E6#16) [] := by decide

theorem test_decode_buildBlob :
    decode [0x18#8, 0x12#8, 0x34#8, 0x01#8, 0x02#8, 0x03#8, 0x04#8, 0x05#8, 0x06#8, 0x07#8, 0x08#8] =
      .instr (.buildBlob 0x1234#16 1#8 2#8 3#8 4#8 5#8 6#8 7#8 8#8) [] := by decide

theorem test_decode_reqlen : decode [0x20#8, 0x10#8] = .instr (.reqlen 16#8) [] := by decide

theorem test_decode_read : decode [0x21#8, 0x10#8, 0x01#8, 0x30#8] = .instr (.read 16#8 1#8) [0x30#8] := by decide

theorem test_decode_decU16 : decode [0x30#8, 0x02#8] = .instr (.decU16 2#8) [] := by decide

theorem test_decode_decI16 : decode [0x31#8, 0x04#8] = .instr (.decI16 4#8) [] := by decide

theorem test_decode_decU32 : decode [0x32#8, 0xFE#8] = .instr (.decU32 254#8) [] := by decide

theorem test_decode_sdecU16 : decode [0x34#8, 0x04#8, 0x00#8] = .instr (.sdecU16 4#8 0#8) [] := by decide

theorem test_decode_sdecI16 : decode [0x35#8, 0x02#8, 0x02#8] = .instr (.sdecI16 2#8 2#8) [] := by decide

theorem test_decode_sdecU32 : decode [0x36#8, 0x00#8, 0x01#8] = .instr (.sdecU32 0#8 1#8) [] := by decide

/-- V21: reserved codes at the ends of their ranges. -/
theorem test_decode_reserved :
    ([0x00#8, 0x03#8, 0x0F#8, 0x14#8, 0x15#8, 0x17#8, 0x19#8, 0x1F#8, 0x22#8, 0x2F#8, 0x33#8, 0x37#8, 0x80#8, 0xFF#8].all
      fun opc => decode [opc, 0x21#8] == .reserved opc [0x21#8]) = true := by decide

theorem test_decode_incomplete : decode [] = .incomplete ∧ decode [0x21#8, 0x04#8] = .incomplete := by decide

/-! ## Operations -/

/-- V2. -/
theorem test_crc8_vectors :
    crc8Word 0x0000#16 = 0x81#8 ∧ crc8Word 0x3A80#16 = 0xA7#8 ∧ crc8Word 0x0100#16 = 0x75#8 ∧ crc8Word 0xFF9C#16 = 0x44#8 := by
  decide

/-- V1, at the descriptor: `01 BE EF` gives 0x92. -/
theorem test_step_crc8 :
    ((after (step { State.reset with pending := [.op [0x01#8, 0xBE#8, 0xEF#8] []] })).map fun t =>
      (t.res, t.status, t.pending)) = some (some 0x92#32, 0#4, []) := by decide

/-- V3: a mismatch is an answer. -/
theorem test_crcchk :
    (after (exec (.crcchk 0xBEEF#16 0x92#8) State.reset)).map (fun t => t.res) = some (some 1#32) ∧
    (after (exec (.crcchk 0xBEEF#16 0x93#8) State.reset)).map (fun t => (t.res, t.status)) = some (some 0#32, 0#4) := by
  decide

/-- V4. -/
theorem test_buildNone :
    (after (exec (.buildNone 0x0100#16) State.reset)).map (fun t => (t.txbuf, t.txLen)) =
      some ([(0, 0x01#8), (1, 0x00#8)], 2#5) := by decide

/-- V5. -/
theorem test_buildS16 :
    (after (exec (.buildS16 0x1234#16 0xBEEF#16) State.reset)).map (fun t => t.txOut) =
      some [0x12#8, 0x34#8, 0xBE#8, 0xEF#8, 0x92#8] := by decide

/-- S9. -/
theorem test_buildS32 :
    (after (exec (.buildS32 0x8004#16 604800#32) State.reset)).map (fun t => (t.txOut, t.txLen)) =
      some ([0x80#8, 0x04#8, 0x00#8, 0x09#8, 0x09#8, 0x3A#8, 0x80#8, 0xA7#8], 8#5) := by decide

/-- V7. -/
theorem test_buildTcomp :
    (after (exec (.buildTcomp 0x1234#16 0xFF38#16 0xFFFF#16 0x7FFF#16) State.reset)).map (fun t => t.txOut) =
      some [0x12#8, 0x34#8, 0xFF#8, 0x38#8, 0x7C#8, 0xFF#8, 0xFF#8, 0xAC#8, 0x7F#8, 0xFF#8, 0x8F#8] := by decide

/-- V8. -/
theorem test_buildTune :
    (after (exec (.buildTune 0xFFFF#16 0xFFFF#16 0x8000#16 0x7FFF#16 0#16 1#16 0xFFFE#16) State.reset)).map
      (fun t => (t.txOut, t.txLen)) =
      some ([0xFF#8, 0xFF#8, 0xFF#8, 0xFF#8, 0xAC#8, 0x80#8, 0x00#8, 0xA2#8, 0x7F#8, 0xFF#8, 0x8F#8, 0x00#8, 0x00#8, 0x81#8,
        0x00#8, 0x01#8, 0xB0#8, 0xFF#8, 0xFE#8, 0x9D#8], 20#5) := by decide

/-- V9, third row, under the default of `BLOB_CRC3`. -/
theorem test_blobFrame :
    blobFrame blobCrc3Default 0x6181#16 0xFF#8 0xFF#8 0xFF#8 0xFF#8 0xFF#8 0xFF#8 0xFF#8 0xFF#8 =
      [0x61#8, 0x81#8, 0xFF#8, 0xFF#8, 0xFF#8, 0xAC#8, 0xFF#8, 0xFF#8, 0xFF#8, 0xAC#8, 0xFF#8, 0xFF#8, 0xAC#8] := by decide

/-- A shorter frame after a longer one leaves nothing specified above it (R118). -/
theorem test_build_twice :
    (after (exec (.buildNone 0x8004#16) { State.reset with txbuf := Memory.store 0 [1#8, 2#8, 3#8, 4#8, 5#8] [], txLen := 5#5 })).map
      (fun t => t.txbuf) = some [(0, 0x80#8), (1, 0x04#8)] := by decide

/-- V10: both columns. -/
theorem test_requestLength :
    [0, 1, 5, 16, 171, 172, 255].map (requestLength none) = [0, 0, 6, 24, 255, 258, 381] ∧
    [0, 1, 5, 16, 171, 172, 255].map (requestLength (some 20)) = [0, 0, 6, 20, 20, 20, 20] := by decide

/-- V11, third row, and the raw bytes consumed. -/
theorem test_read_ok :
    (after (exec (.read 6#8 0#8) (handed [0x03#8, 0xE8#8, 0xD4#8, 0x07#8, 0xD0#8, 0x2B#8, 0xFF#8, 0x38#8, 0x7C#8]))).map
      (fun t => (t.rxbuf, t.rxLen, t.rxValid, t.status, t.res)) =
      some ([(0, 0x03#8), (1, 0xE8#8), (2, 0x07#8), (3, 0xD0#8), (4, 0xFF#8), (5, 0x38#8)], 6#8, true, 0#4, some 9#32) := by
  decide

/-- V16 (b): a zero word with a wrong checksum is no stop. -/
theorem test_read_zero_word_bad_checksum :
    (after (exec (.read 8#8 1#8) { bufferA with raw := [0x41#8, 0x42#8, 0xA3#8, 0x00#8, 0x00#8, 0x80#8] })).map
      (fun t => (t.rxbuf, t.rxLen, t.rxValid, t.status, t.res)) = some ([], 0#8, false, 1#4, some 6#32) := by
  decide

/-- V13, fourth row: odd `n`. -/
theorem test_read_odd :
    (after (exec (.read 3#8 0#8) (handed [0x00#8, 0x09#8, 0x09#8, 0x3A#8, 0x80#8, 0xA7#8]))).map
      (fun t => (t.rxLen, t.status, t.res)) = some (0#8, 2#4, some 6#32) := by decide

/-- V16 (d): an odd number of characters. -/
theorem test_read_zero_stop :
    (after (exec (.read 8#8 1#8)
      (handed [0x41#8, 0x42#8, 0xA3#8, 0x43#8, 0x00#8, 0x25#8, 0x00#8, 0x00#8, 0x81#8, 0x00#8, 0x00#8, 0x81#8]))).map
      (fun t => (t.rxLen, t.status, t.res, t.raw)) = some (6#8, 0#4, some 9#32, [0x00#8, 0x00#8, 0x81#8]) := by decide

/-- V17, fourth row: the reserved bit is tested first, and the buffer stays valid. -/
theorem test_read_reserved :
    (after (exec (.read 4#8 2#8) bufferA)).map (fun t => (t.rxbuf, t.rxValid, t.status, t.fault, t.res)) =
      some (bufferA.rxbuf, true, 8#4, true, none) := by decide

/-- V17, second row: `READ 255` faults for every admitted `RX_MAX`. -/
theorem test_read_badOperand : exec (.read 255#8 1#8) bufferA = .next (raise (.badOperand 255#8) bufferA) := by
  have h := rxMax_bounds
  have h' : ¬ ((255#8 : Byte).toNat ≤ Config.rxMax) := by show ¬ (255 ≤ Config.rxMax); omega
  simp only [exec, execRead, if_neg h']
  rfl

/-- V18. -/
theorem test_decU16 :
    (after (exec (.decU16 1#8) bufferA)).map (fun t => t.res) = some (some 0x0000E807#32) ∧
    (after (exec (.decU16 5#8) bufferA)).map (fun t => (t.res, t.status, t.fault)) = some (none, 10#4, true) := by decide

/-- V18: -200, and the most negative value. -/
theorem test_decI16 :
    (after (exec (.decI16 4#8) bufferA)).map (fun t => t.res) = some (some 0xFFFFFF38#32) ∧
    (after (exec (.decI16 0#8) bufferB)).map (fun t => t.res) = some (some 0xFFFF8000#32) := by decide

/-- V18 and V20: the last legal offset, and an offset whose sum would wrap. -/
theorem test_decU32 :
    (after (exec (.decU32 2#8) bufferA)).map (fun t => t.res) = some (some 0x07D0FF38#32) ∧
    (after (exec (.decU32 254#8) bufferA)).map (fun t => t.status) = some 10#4 := by decide

/-- V19. -/
theorem test_sdecU16 :
    (after (exec (.sdecU16 4#8 0#8) bufferA)).map (fun t => (t.res, t.resK)) = some (some 65336#32, some 0#2) := by decide

/-- V19, and V20: the selector's reserved bits are tested before the buffer. -/
theorem test_sdecI16 :
    (after (exec (.sdecI16 2#8 2#8) bufferA)).map (fun t => (t.res, t.resK)) = some (some 2000#32, some 2#2) ∧
    (after (exec (.sdecI16 0#8 0xFF#8) State.reset)).map (fun t => t.status) = some 8#4 := by decide

/-- V19. -/
theorem test_sdecU32 :
    (after (exec (.sdecU32 0#8 1#8) (received [0x00#8, 0x09#8, 0x3A#8, 0x80#8]))).map (fun t => (t.res, t.resK)) =
      some (some 604800#32, some 1#2) := by decide

/-- V19: the exact values -32768/1000 = -4096/125 and 65336/10 = 32668/5. -/
theorem test_exact_values :
    scaledSigned 0xFFFF8000#32 3#2 = -4096 / 125 ∧ scaledUnsigned 65336#32 0#2 = 32668 / 5 := by
  have h : (0xFFFF8000#32 : Long).toInt = -32768 := by decide
  constructor
  · simp [scaledSigned, scaleConstant, h]; norm_num
  · simp [scaledUnsigned, scaleConstant]; norm_num

/-- V22: reset from a state with everything set, and the run goes on. -/
theorem test_reset_step :
    after (step { bufferA with fault := true, status := 10#4, txLen := 2#5, pending := [.reset, .op [0x30#8, 0x00#8] []] }) =
      some { State.reset with pending := [.op [0x30#8, 0x00#8] []] } := by decide

/-- P6: a reserved code is one byte; what follows it is the next descriptor. -/
theorem test_step_reserved :
    (after (step { State.reset with pending := [.op [0x00#8, 0x30#8, 0x00#8] []] })).map
      (fun t => (t.status, t.fault, t.pending)) = some (8#4, true, [.op [0x30#8, 0x00#8] []]) := by decide

/-- R90: a line of P1, and the raw list of P2. -/
theorem test_assemble :
    assembleLine "BUILD.S32 0x8004, 604800        ; comment".toList = some (.buildS32 0x8004#16 604800#32) ∧
    assembleLine "SDEC.I16 2, 200".toList = some (.sdecI16 2#8 2#8) ∧
    assembleRaw "  raw = [0x00, 9, 0x09]".toList = some [0#8, 9#8, 9#8] := by decide

/-- R91, the pseudo-operations. -/
theorem test_assemble_pseudo :
    assembleLine "READ.TEXT 16".toList = some (.read 16#8 1#8) ∧
    assembleLine "BUILD.I16 0x1234, -32768".toList = some (.buildS16 0x1234#16 0x8000#16) ∧
    assembleLine "VALIDATE 0xBEEF, 0x92".toList = some (.crcchk 0xBEEF#16 0x92#8) := by decide

/-! ## Witnesses: for each statement with hypotheses, a state and operands that meet them -/

/-- The good groups of the base stream of V12. -/
def twoWords : List (Byte × Byte) := [(0x00#8, 0x09#8), (0x3A#8, 0x80#8)]

theorem operands_ok (n fl : Byte) (hn : n.toNat ≤ 16) (hf : fl &&& 0xFE#8 = 0#8) : ReadOperandsOk n fl :=
  ⟨hf, le_trans hn rxMax_bounds.1⟩

theorem twoWords_no_zero : NoZeroWord twoWords := by simp [NoZeroWord, twoWords]

theorem witness_DecodedBytesAreTheDescriptor : decode [0x36#8, 0xFF#8, 0x03#8, 0x01#8] = .instr (.sdecU32 0xFF#8 3#8) [0x01#8] := by
  decide

theorem witness_StepRunsTheDecodedOperation :
    let s : State := { bufferA with pending := [.op [0x30#8, 0x00#8, 0x01#8] [0x00#8], .reset] }
    s.pending = .op [0x30#8, 0x00#8, 0x01#8] [0x00#8] :: [.reset] ∧
      decode [0x30#8, 0x00#8, 0x01#8] = .instr (.decU16 0#8) [0x01#8] := by decide

theorem witness_ReservedCodeRaisesIllegalOp :
    let s : State := { bufferA with pending := [.op [0x37#8, 0x30#8] []] }
    0x37#8 ∉ operationCodes ∧ s.pending = .op (0x37#8 :: [0x30#8]) [] :: [] := by decide

/-- Both ends of each range of reserved bits. -/
theorem witness_ReservedOperandBitsRaiseIllegalOp :
    (2#8 : Byte).getLsbD 1 = true ∧ (0x80#8 : Byte).getLsbD 7 = true ∧ (4#8 : Byte).getLsbD 2 = true := by decide

/-- Each clause: nothing pending, a reset pending, a reserved code pending with and without a byte after it. -/
theorem witness_RunAdvancesByOneStep :
    State.reset.pending = [] ∧ ({ bufferA with pending := [.reset] } : State).pending = .reset :: [] ∧
      0x00#8 ∉ operationCodes ∧
      ({ bufferA with pending := [.op [0x00#8, 0x01#8] []] } : State).pending = .op (0x00#8 :: [0x01#8]) [] :: [] ∧
      ({ bufferA with pending := [.op [0x00#8] []] } : State).pending = .op (0x00#8 :: []) [] :: [] := by decide

/-- Both clauses: a reset is pending, and a step from a state with FAULT set answers a good state. -/
theorem witness_ResetStepAloneClearsFault :
    let s : State := { bufferA with fault := true, pending := [.reset] }
    s.pending = .reset :: [] ∧ ¬ Good s ∧ ∃ t, step s = .next t ∧ Good t :=
  ⟨rfl, by unfold Good; decide, _, rfl, rfl⟩

/-- Each clause: an operation, a step that runs a reserved code, and a pending reset. -/
theorem witness_StatusAndFaultInfluenceNothing :
    (∃ t, exec (.decU16 6#8) bufferA = .next t) ∧
      (let s : State := { bufferA with pending := [.op [0x00#8] []] }
       s.pending = .op [0x00#8] [] :: [] ∧ ∃ t, step s = .next t) ∧
      ({ bufferA with fault := true, pending := [.reset] } : State).pending = .reset :: [] :=
  ⟨⟨_, rfl⟩, ⟨rfl, _, rfl⟩, rfl⟩

theorem bufferA_inv : Inv bufferA := by
  refine ⟨by decide, by decide, ?_, by decide, by decide, by decide⟩
  have h := rxMax_bounds
  show 6 ≤ Config.rxMax
  omega

theorem bufferA_exact : BuffersExact bufferA := ⟨by decide, by decide⟩

theorem witness_StepKeepsInv :
    Inv { bufferA with pending := [.op [0x32#8, 0x03#8] []] } ∧
      ∃ t, step { bufferA with pending := [.op [0x32#8, 0x03#8] []] } = .next t :=
  ⟨⟨bufferA_inv.txLen, bufferA_inv.rxEven, bufferA_inv.rxBound, bufferA_inv.validLen, bufferA_inv.invalidLen,
    bufferA_inv.status⟩, _, rfl⟩

theorem witness_StepKeepsBuffersExact :
    BuffersExact { bufferA with pending := [.op [0x10#8, 0x80#8, 0x04#8] []] } ∧
      ∃ t, step { bufferA with pending := [.op [0x10#8, 0x80#8, 0x04#8] []] } = .next t :=
  ⟨⟨by decide, by decide⟩, _, rfl⟩

/-- Both clauses: an operation that is no BUILD, and one that is no READ. -/
theorem witness_OnlyBuildAndReadWriteBuffers :
    isBuild (.crc8 0#16) = false ∧ (∀ n fl, Instr.crc8 0#16 ≠ .read n fl) ∧ ∃ t, exec (.crc8 0#16) bufferA = .next t :=
  ⟨rfl, by simp, _, rfl⟩

theorem witness_OutcomesByOperation :
    (∃ t, exec (.read 0#8 0#8) bufferA = .next t) ∧ (∃ t, exec (.decU32 3#8) bufferA = .next t) ∧
      (∃ t, exec (.sdecU16 0#8 4#8) bufferA = .next t) ∧ ∃ t, exec (.reqlen 5#8) bufferA = .next t := by
  refine ⟨⟨_, exec_read (operands_ok _ _ (by decide) (by decide))⟩, ⟨_, rfl⟩, ⟨_, rfl⟩, ⟨_, rfl⟩⟩

theorem witness_CrcchkAnswers : ∃ t, exec (.crcchk 0#16 0x81#8) bufferA = .next t := ⟨_, rfl⟩

theorem witness_WordsOfChecksumZero : crc8Word 0xFF00#16 = 0#8 := by decide

theorem witness_FramesFitTheTransmitBuffer :
    isBuild (.buildTune 0#16 1#16 2#16 3#16 4#16 5#16 6#16) = true ∧
      (∃ t, exec (.buildTune 0#16 1#16 2#16 3#16 4#16 5#16 6#16) bufferA = .next t) ∧ Config.txMax ≤ 20 :=
  ⟨rfl, ⟨_, rfl⟩, by decide⟩

/-- Both clauses; the second at the one operand that exceeds every admitted `RX_MAX`. -/
theorem witness_ReadOperandCheck :
    ((2#8 : Byte) &&& 0xFE#8 ≠ 0#8) ∧ ((1#8 : Byte) &&& 0xFE#8 = 0#8) ∧ Config.rxMax < (255#8 : Byte).toNat := by
  refine ⟨by decide, by decide, ?_⟩
  have h := rxMax_bounds
  show Config.rxMax < 255
  omega

theorem witness_ReadCollectsTheRequestedBytes :
    ReadOperandsOk 4#8 1#8 ∧ (handed [0x00#8, 0x09#8, 0x09#8, 0x3A#8, 0x80#8, 0xA7#8, 0x01#8]).raw = goodStream twoWords ++ [0x01#8] ∧
      twoWords ≠ [] ∧ 2 * twoWords.length = (4#8 : Byte).toNat ∧ NoZeroWord twoWords :=
  ⟨operands_ok _ _ (by decide) (by decide), by decide, by decide, by decide, twoWords_no_zero⟩

/-- At the boundary: the zero word is the last one that fits. -/
theorem witness_ReadStopsAtTheZeroWord :
    ReadOperandsOk 5#8 1#8 ∧ (1#8 : Byte).getLsbD 0 = true ∧
      (handed [0x00#8, 0x09#8, 0x09#8, 0x3A#8, 0x80#8, 0xA7#8, 0x00#8, 0x00#8, 0x81#8]).raw =
        goodStream twoWords ++ [0#8, 0#8, crc8 0#8 0#8] ++ [] ∧
      NoZeroWord twoWords ∧ 2 * twoWords.length < (5#8 : Byte).toNat :=
  ⟨operands_ok _ _ (by decide) (by decide), by decide, by decide, twoWords_no_zero, by decide⟩

theorem witness_ReadFailsOnABadChecksum :
    ReadOperandsOk 6#8 0#8 ∧
      (handed [0x00#8, 0x09#8, 0x09#8, 0x3A#8, 0x80#8, 0xA7#8, 0x00#8, 0x00#8, 0x80#8]).raw =
        goodStream twoWords ++ [0#8, 0#8, 0x80#8] ++ [] ∧
      crc8 0#8 0#8 ≠ 0x80#8 ∧ 2 * twoWords.length < (6#8 : Byte).toNat ∧ NoZeroWord twoWords :=
  ⟨operands_ok _ _ (by decide) (by decide), by decide, by decide, by decide, twoWords_no_zero⟩

/-- Both clauses: nothing asked for, and two raw bytes only. -/
theorem witness_ReadWithoutDataIsNoData :
    ReadOperandsOk 0#8 1#8 ∧ ReadOperandsOk 4#8 0#8 ∧ (handed [0x00#8, 0x09#8]).raw.length < 3 :=
  ⟨operands_ok _ _ (by decide) (by decide), operands_ok _ _ (by decide) (by decide), by decide⟩

theorem witness_ReadOfTooFewBytesIsLengthMismatch :
    ReadOperandsOk 5#8 0#8 ∧
      (handed [0x00#8, 0x09#8, 0x09#8, 0x3A#8, 0x80#8, 0xA7#8, 0x01#8, 0x02#8]).raw = goodStream twoWords ++ [0x01#8, 0x02#8] ∧
      [0x01#8, 0x02#8].length < 3 ∧ twoWords ≠ [] ∧ 2 * twoWords.length < (5#8 : Byte).toNat ∧ NoZeroWord twoWords :=
  ⟨operands_ok _ _ (by decide) (by decide), by decide, by decide, by decide, by decide, twoWords_no_zero⟩

theorem witness_ReadOfAnOddLengthIsLengthMismatch :
    ReadOperandsOk 3#8 1#8 ∧ (handed [0x00#8, 0x09#8, 0x09#8, 0x3A#8, 0x80#8, 0xA7#8]).raw = goodStream twoWords ++ [] ∧
      2 * twoWords.length = (3#8 : Byte).toNat + 1 ∧ NoZeroWord twoWords :=
  ⟨operands_ok _ _ (by decide) (by decide), by decide, by decide, twoWords_no_zero⟩

theorem witness_ReadNeverAcceptsCorruptedData : ReadOperandsOk 16#8 1#8 := operands_ok _ _ (by decide) (by decide)

/-- One flipped bit of each kind, at bit 7, in a reached second group. -/
theorem witness_ReadDetectsEverySingleBitError :
    ReadOperandsOk 4#8 0#8 ∧
      (handed [0x00#8, 0x09#8, 0x09#8, 0x3A#8, 0x80#8, 0x27#8]).raw =
        goodStream [(0x00#8, 0x09#8)] ++ [0x3A#8, 0x80#8, crc8 0x3A#8 0x80#8 ^^^ (1#8 <<< 7)] ++ [] ∧
      (handed [0x00#8, 0x09#8, 0x09#8, 0xBA#8, 0x80#8, 0xA7#8]).raw =
        goodStream [(0x00#8, 0x09#8)] ++ [0x3A#8 ^^^ (1#8 <<< 7), 0x80#8, crc8 0x3A#8 0x80#8] ++ [] ∧
      (handed [0x00#8, 0x09#8, 0x09#8, 0x3A#8, 0x00#8, 0xA7#8]).raw =
        goodStream [(0x00#8, 0x09#8)] ++ [0x3A#8, 0x80#8 ^^^ (1#8 <<< 7), crc8 0x3A#8 0x80#8] ++ [] ∧
      2 * [((0x00#8 : Byte), (0x09#8 : Byte))].length < (4#8 : Byte).toNat :=
  ⟨operands_ok _ _ (by decide) (by decide), by decide, by decide, by decide, by decide⟩

theorem witness_DecodesFaultAfterAFailedRead :
    (∃ t, after (exec (.read 4#8 0#8) (handed [0x00#8, 0x09#8])) = some t ∧ t.status ∈ [1#4, 2#4, 3#4]) ∧
      decodeRange (.sdecU16 0#8 3#8) ≠ none ∧ (Instr.sdecU16 0#8 3#8).wf = true :=
  ⟨⟨_, rfl, by decide⟩, by decide, by decide⟩

theorem witness_ReadForgetsThePreviousBuffer : ReadOperandsOk 16#8 0#8 := operands_ok _ _ (by decide) (by decide)

/-- Each of the four forms, with its fields. -/
theorem witness_BuiltFieldsReadBack :
    ((∃ cmd v, Instr.buildS16 0x1234#16 0xBEEF#16 = .buildS16 cmd v ∧ [0xBEEF#16] = [v]) ∧
      ∃ t, exec (.buildS16 0x1234#16 0xBEEF#16) bufferA = .next t) ∧
    ((∃ cmd v, Instr.buildS32 0x8004#16 604800#32 = .buildS32 cmd v ∧
        [0x0009#16, 0x3A80#16] = [v.extractLsb' 16 16, v.extractLsb' 0 16]) ∧
      ∃ t, exec (.buildS32 0x8004#16 604800#32) bufferA = .next t) ∧
    ((∃ cmd f0 f1 f2, Instr.buildTcomp 0x1234#16 2000#16 0#16 12#16 = .buildTcomp cmd f0 f1 f2 ∧
        [2000#16, 0#16, 12#16] = [f0, f1, f2]) ∧
      ∃ t, exec (.buildTcomp 0x1234#16 2000#16 0#16 12#16) bufferA = .next t) ∧
    ((∃ cmd f0 f1 f2 f3 f4 f5, Instr.buildTune 0x1234#16 100#16 12#16 12#16 180#16 50#16 230#16 =
          .buildTune cmd f0 f1 f2 f3 f4 f5 ∧
        [100#16, 12#16, 12#16, 180#16, 50#16, 230#16] = [f0, f1, f2, f3, f4, f5]) ∧
      ∃ t, exec (.buildTune 0x1234#16 100#16 12#16 12#16 180#16 50#16 230#16) bufferA = .next t) :=
  ⟨⟨⟨_, _, rfl, rfl⟩, _, rfl⟩, ⟨⟨_, _, rfl, by decide⟩, _, rfl⟩, ⟨⟨_, _, _, _, rfl, rfl⟩, _, rfl⟩,
    ⟨⟨_, _, _, _, _, _, _, rfl, rfl⟩, _, rfl⟩⟩

theorem witness_ZeroTerminationExample :
    (handed (goodStream [(0x41#8, 0x42#8), (0x43#8, 0x44#8), (0#8, 0#8), (0#8, 0#8), (0#8, 0#8), (0#8, 0#8), (0#8, 0#8),
      (0#8, 0#8)])).raw =
      [0x41#8, 0x42#8, 0xA3#8, 0x43#8, 0x44#8, 0xDC#8, 0x00#8, 0x00#8, 0x81#8] ++
        (List.replicate 5 [0x00#8, 0x00#8, 0x81#8]).flatten := by decide

/-- Each clause: reserved bits; an invalid buffer; the first offset out of range, and the last, without wrap-around. -/
theorem witness_DecodeChecksInOrder :
    decodeRange (.sdecI16 0#8 4#8) = some (2, 0#8) ∧ (Instr.sdecI16 0#8 4#8).wf = false ∧
      decodeRange (.decU32 3#8) = some (4, 3#8) ∧ (Instr.decU32 3#8).wf = true ∧ State.reset.rxValid = false ∧
      bufferA.rxValid = true ∧ bufferA.rxLen.toNat < (3#8 : Byte).toNat + 4 ∧
      bufferA.rxLen.toNat < (255#8 : Byte).toNat + 2 := by decide

/-- The hypotheses of the results of two-byte decodes, at the first and the last legal offset. -/
theorem witness_narrow_decodes :
    bufferA.rxValid = true ∧ (0#8 : Byte).toNat + 2 ≤ bufferA.rxLen.toNat ∧ (4#8 : Byte).toNat + 2 ≤ bufferA.rxLen.toNat ∧
      (3#8 : Byte) &&& 0xFC#8 = 0#8 := by decide

/-- The hypotheses of the fault clauses of the six result statements: no valid buffer; the first offset out of range of a
two-byte and of a four-byte decode, and the greatest offset; reserved selector bits. -/
theorem witness_decode_faults :
    State.reset.rxValid = false ∧ bufferA.rxValid = true ∧ bufferA.rxLen.toNat < (5#8 : Byte).toNat + 2 ∧
      bufferA.rxLen.toNat < (3#8 : Byte).toNat + 4 ∧ bufferA.rxLen.toNat < (255#8 : Byte).toNat + 4 ∧
      (4#8 : Byte) &&& 0xFC#8 ≠ 0#8 := by decide

theorem witness_DecU16Value : bufferA.rxValid = true ∧ (4#8 : Byte).toNat + 2 ≤ bufferA.rxLen.toNat := by decide

theorem witness_DecI16Value : bufferB.rxValid = true ∧ (4#8 : Byte).toNat + 2 ≤ bufferB.rxLen.toNat := by decide

theorem witness_DecU32Value : bufferFull.rxValid = true ∧ (12#8 : Byte).toNat + 4 ≤ bufferFull.rxLen.toNat := by decide

theorem witness_SdecU16Value :
    (3#8 : Byte) &&& 0xFC#8 = 0#8 ∧ bufferA.rxValid = true ∧ (4#8 : Byte).toNat + 2 ≤ bufferA.rxLen.toNat := by decide

theorem witness_SdecI16Value :
    (2#8 : Byte) &&& 0xFC#8 = 0#8 ∧ bufferA.rxValid = true ∧ (2#8 : Byte).toNat + 2 ≤ bufferA.rxLen.toNat := by decide

theorem witness_SdecU32Value :
    (1#8 : Byte) &&& 0xFC#8 = 0#8 ∧ bufferA.rxValid = true ∧ (2#8 : Byte).toNat + 4 ≤ bufferA.rxLen.toNat := by decide

theorem witness_DecodedBytesAreStored : BuffersExact bufferA ∧ 5 < bufferA.rxLen.toNat := ⟨bufferA_exact, by decide⟩

theorem witness_DecodesArePure :
    decodeRange (.decU32 3#8) ≠ none ∧ (∃ t, exec (.decU32 3#8) bufferA = .next t) ∧ ∃ t, exec (.decU16 0#8) bufferA = .next t :=
  ⟨by decide, ⟨_, rfl⟩, _, rfl⟩

theorem witness_WideDecodeIsTwoNarrowOnes : bufferA.rxValid = true ∧ (2#8 : Byte).toNat + 4 ≤ bufferA.rxLen.toNat := by decide

theorem witness_SignedDecodeOfUnsigned : bufferB.rxValid = true ∧ (0#8 : Byte).toNat + 2 ≤ bufferB.rxLen.toNat := by decide

end Sys2Proof.Tests
end

section
/-! PROOFS. The state after reset, and STATUS and FAULT as outputs that no operation reads (R28, R29, R34). -/

namespace Sys2Proof.Machine

/-- Settles O11: the values of R34's table, read off the definition. -/
theorem resetValues : Obligations.ResetValues := ⟨rfl, rfl, rfl, rfl, rfl⟩

/-- The state with another STATUS and FAULT, everything else as it is. -/
def State.withFlags (c : BitVec 4) (f : Bool) (s : State) : State := { s with status := c, fault := f }

/-- An operation's final state, had FAULT been `f` before it: a fault code in STATUS sets it, a result code keeps it. -/
def State.faultFrom (f : Bool) (t : State) : State := { t with fault := f || decide (8 ≤ t.status.toNat) }

/-- The codes of the results are below 8 (R170). -/
theorem resultCode_lt (r : Result) : (resultCode r).toNat < 8 := by cases r <;> decide

/-- The codes of the faults are 8 and up (R170). -/
theorem le_faultCode (x : FcuFault) : 8 ≤ (faultCode x).toNat := by cases x <;> simp [faultCode]

/-- `State.faultFrom` keeps FAULT as it was where the operation ended in a result. -/
theorem faultFrom_of_lt {f : Bool} {t : State} (h : t.status.toNat < 8) : t.faultFrom f = { t with fault := f } := by
  simp [State.faultFrom, h]

/-- `State.faultFrom` sets FAULT where the operation ended in a fault. -/
theorem faultFrom_of_le {f : Bool} {t : State} (h : 8 ≤ t.status.toNat) :
    t.faultFrom f = { t with fault := true } := by
  simp [State.faultFrom, h]

section
variable (c : BitVec 4) (f : Bool) (s : State)

theorem raise_withFlags (x : FcuFault) : raise x (s.withFlags c f) = (raise x s).faultFrom f :=
  (faultFrom_of_le (t := raise x s) (le_faultCode x)).symm

theorem finish_withFlags (r : Result) (v : Option Long) (k : Option (BitVec 2)) :
    finish r v k (s.withFlags c f) = (finish r v k s).faultFrom f :=
  (faultFrom_of_lt (t := finish r v k s) (resultCode_lt r)).symm

theorem loadFrame_withFlags (frame : List Byte) :
    loadFrame frame (s.withFlags c f) = (loadFrame frame s).faultFrom f :=
  (faultFrom_of_lt (t := loadFrame frame s) (resultCode_lt .ok)).symm

theorem readOk_withFlags (e : Cursor) : readOk e (s.withFlags c f) = (readOk e s).faultFrom f :=
  (faultFrom_of_lt (t := readOk e s) (resultCode_lt .ok)).symm

theorem readError_withFlags (r : Result) (e : Cursor) :
    readError r e (s.withFlags c f) = (readError r e s).faultFrom f :=
  (faultFrom_of_lt (t := readError r e s) (resultCode_lt r)).symm

theorem readEnd_withFlags (n : Nat) (e : LoopEnd × Cursor) :
    readEnd n e (s.withFlags c f) = (readEnd n e s).faultFrom f := by
  unfold readEnd
  split
  · exact readError_withFlags c f s _ _
  · exact readOk_withFlags c f s _
  · split_ifs
    · exact readError_withFlags c f s _ _
    · exact readOk_withFlags c f s _
    · exact readError_withFlags c f s _ _

/-- A decode whose value is not read from STATUS or FAULT. -/
theorem decodeField_withFlags {value : State → Long} (hv : value (s.withFlags c f) = value s)
    (width : Nat) (off : Byte) (k : Option (BitVec 2)) :
    decodeField width off value k (s.withFlags c f) = (decodeField width off value k s).faultFrom f := by
  have hf : decodeFault width off (s.withFlags c f) = decodeFault width off s := rfl
  unfold decodeField
  rw [hf, hv]
  split
  · exact raise_withFlags c f s _
  · exact finish_withFlags c f s _ _ _

/-- A scaled decode whose value is not read from STATUS or FAULT. -/
theorem decodeScaled_withFlags {value : State → Long} (hv : value (s.withFlags c f) = value s)
    (width : Nat) (off ks : Byte) :
    decodeScaled width off ks value (s.withFlags c f) = (decodeScaled width off ks value s).faultFrom f := by
  unfold decodeScaled
  split
  · exact raise_withFlags c f s _
  · exact decodeField_withFlags c f s hv width off _

theorem execRead_withFlags (n fl : Byte) {t : State} (h : execRead n fl s = .next t) :
    execRead n fl (s.withFlags c f) = .next (t.faultFrom f) := by
  unfold execRead at h ⊢
  split_ifs at h ⊢ <;> cases h
  · exact congrArg Host.Outcome.next (raise_withFlags c f s _)
  · exact congrArg Host.Outcome.next (readEnd_withFlags c f s _ _)
  · exact congrArg Host.Outcome.next (raise_withFlags c f s _)

end

/-- No operation reads STATUS or FAULT (R28, R29). -/
theorem exec_withFlags {i : Instr} {s t : State} (c : BitVec 4) (f : Bool) (h : exec i s = .next t) :
    exec i (s.withFlags c f) = .next (t.faultFrom f) := by
  cases i with
  | read n fl => exact execRead_withFlags c f s n fl h
  | crc8 | crcchk | reqlen => cases h; exact congrArg Host.Outcome.next (finish_withFlags c f s _ _ _)
  | buildNone | buildS16 | buildS32 | buildTcomp | buildTune | buildBlob =>
    obtain rfl := Host.Outcome.next.inj h
    exact congrArg Host.Outcome.next (loadFrame_withFlags c f s _)
  | decU16 | decI16 | decU32 => cases h; exact congrArg Host.Outcome.next (decodeField_withFlags c f s rfl _ _ _)
  | sdecU16 | sdecI16 | sdecU32 => cases h; exact congrArg Host.Outcome.next (decodeScaled_withFlags c f s rfl _ _ _)

/-- A step that performs what the host presents, a reserved code among it, reads neither STATUS nor FAULT. -/
theorem step_withFlags {s t : State} {d raw : List Byte} {later : List HostStep} (c : BitVec 4) (f : Bool)
    (hp : s.pending = .op d raw :: later) (h : step s = .next t) :
    step (s.withFlags c f) = .next (t.faultFrom f) := by
  have hp' : (s.withFlags c f).pending = .op d raw :: later := hp
  unfold step at h ⊢
  rw [hp] at h
  rw [hp']
  dsimp only at h ⊢
  split at h
  · cases h
  · cases h; exact congrArg Host.Outcome.next (raise_withFlags c f (accept _ raw later s) _)
  · exact exec_withFlags c f h

/-- A reset step clears FAULT (R190). -/
theorem step_of_pending_reset {s : State} {later : List HostStep} (hp : s.pending = .reset :: later) :
    step s = .next (applyReset later) := by
  simp [step, hp]

/-- Settles O13: every way an operation ends commutes with replacing STATUS and FAULT before it. -/
theorem statusAndFaultInfluenceNothing : Obligations.StatusAndFaultInfluenceNothing :=
  ⟨fun _ _ _ c f h => exec_withFlags c f h,
    fun _ _ _ _ _ c f hp h => step_withFlags c f hp h,
    fun _ later hp => ⟨applyReset later, step_of_pending_reset hp, applyReset_fault later⟩⟩

end Sys2Proof.Machine
end

section
/-! PROOFS. What raises IllegalOp before an operation has any effect: a reserved operation code (R86) and reserved operand
bits (R87). And the frame of a 32-bit scalar (R82, R113). -/

namespace Sys2Proof.Machine

/-- Fault entry, exactly R176. -/
theorem faultTaken_raise (f : FcuFault) (s : State) : FaultTaken (faultCode f) s (raise f s) :=
  ⟨rfl, rfl, rfl, rfl, ⟨fun _ => rfl, rfl⟩, ⟨fun _ => rfl, rfl, rfl⟩, rfl, rfl⟩

/-! ## Reserved operation codes -/

/-- Of the 256 codes, 240 are not among R85's sixteen (R86). -/
theorem reservedCodes_length :
    ((List.range 256).filter fun k => !operationCodes.contains (BitVec.ofNat 8 k)).length = 240 := by
  decide +kernel

/-- A code outside R85's sixteen is reserved, whatever follows it (R86). -/
theorem decode_of_not_mem_operationCodes {opc : Byte} (h : opc ∉ operationCodes) (ops : List Byte) :
    decode (opc :: ops) = .reserved opc ops := by
  have hne : ∀ c ∈ operationCodes, opc.toNat ≠ c.toNat := fun c hc e => h (BitVec.eq_of_toNat_eq e ▸ hc)
  simp only [operationCodes, List.forall_mem_cons, BitVec.reduceToNat] at hne
  simp only [decode]
  split
  case h_17 => rfl
  all_goals omega -- the sixteen arms of `decode` contradict `hne`

/-- The step on a reserved code consumes that byte alone and takes the fault (R86). -/
theorem step_of_reserved {s : State} {opc : Byte} {ops raw : List Byte} {later : List HostStep}
    (h : opc ∉ operationCodes) (hp : s.pending = .op (opc :: ops) raw :: later) :
    step s = .next (raise .illegalOp (accept ops raw later s)) := by
  simp [step, hp, decode_of_not_mem_operationCodes h]

/-- Settles O7: the codes are counted, and each of them decodes as reserved. -/
theorem reservedCodeRaisesIllegalOp : Obligations.ReservedCodeRaisesIllegalOp := by
  refine ⟨reservedCodes_length, fun s opc ops raw later h hp => ⟨decode_of_not_mem_operationCodes h ops, ?_⟩⟩
  obtain ⟨hstatus, hfault, hres, hresK, htx, hrx, -⟩ := faultTaken_raise .illegalOp (accept ops raw later s)
  exact ⟨_, step_of_reserved h hp, hstatus, hfault, hres, hresK, htx, hrx⟩

/-! ## Reserved operand bits -/

/-- A byte with a set bit under a mask is not zero under that mask. -/
theorem and_mask_bne_zero {b mask : Byte} {j : Nat} (hb : b.getLsbD j = true) (hmask : mask.getLsbD j = true) :
    (b &&& mask != 0#8) = true := by
  refine bne_iff_ne.mpr fun hzero => ?_
  have hbit : (b &&& mask).getLsbD j = true := by rw [BitVec.getLsbD_and, hb, hmask, Bool.and_self]
  simp [hzero] at hbit

/-- The reserved bits of READ's flags byte are bits 7 to 1 (R84). -/
theorem readReserved_of_getLsbD {fl : Byte} {j : Nat} (h1 : 1 ≤ j) (h7 : j ≤ 7) (hj : fl.getLsbD j = true) :
    readReserved fl = true :=
  and_mask_bne_zero hj (by interval_cases j <;> rfl)

/-- The reserved bits of a selector byte are bits 7 to 2 (R84). -/
theorem scaleReserved_of_getLsbD {ks : Byte} {j : Nat} (h2 : 2 ≤ j) (h7 : j ≤ 7) (hj : ks.getLsbD j = true) :
    scaleReserved ks = true :=
  and_mask_bne_zero hj (by interval_cases j <;> rfl)

/-- READ checks its reserved bits before anything else (R87, R180). -/
theorem exec_read_of_readReserved {fl : Byte} (h : readReserved fl = true) (n : Byte) (s : State) :
    exec (.read n fl) s = .next (raise .illegalOp s) :=
  if_pos h

/-- A scaled decode checks its reserved bits before anything else (R87, R150). -/
theorem decodeScaled_of_scaleReserved {ks : Byte} (h : scaleReserved ks = true) (width : Nat) (off : Byte)
    (value : State → Long) (s : State) : decodeScaled width off ks value s = raise .illegalOp s :=
  if_pos h

/-- Settles O8: a set bit is one under the mask that the operation tests first. -/
theorem reservedOperandBitsRaiseIllegalOp : Obligations.ReservedOperandBitsRaiseIllegalOp := by
  refine ⟨fun n fl s ⟨j, h1, h7, hj⟩ => ?_, fun off ks s ⟨j, h2, h7, hj⟩ => ?_⟩
  · exact ⟨_, exec_read_of_readReserved (readReserved_of_getLsbD h1 h7 hj) n s, faultTaken_raise _ s⟩
  · have hfault : ∀ width value, FaultTaken 8#4 s (decodeScaled width off ks value s) := fun width value =>
      decodeScaled_of_scaleReserved (scaleReserved_of_getLsbD h2 h7 hj) width off value s ▸ faultTaken_raise .illegalOp s
    exact ⟨⟨_, rfl, hfault 2 _⟩, ⟨_, rfl, hfault 2 _⟩, ⟨_, rfl, hfault 4 _⟩⟩

/-! ## The frame of a 32-bit scalar -/

/-- What every BUILD does with a frame whose length `TX_LEN` can hold (R118). -/
theorem built_loadFrame {frame : List Byte} (h : frame.length < 32) (s : State) : Built frame s (loadFrame frame s) :=
  ⟨fun a _ => read_loadFrame frame s a, by simp [Nat.mod_eq_of_lt h], rfl, rfl, rfl, ⟨fun _ => rfl, rfl, rfl⟩, rfl, rfl⟩

/-- A field of a field is a field of the whole. -/
theorem extractLsb'_extractLsb' {w a m b k : Nat} (v : BitVec w) (h : b + k ≤ m) :
    (v.extractLsb' a m).extractLsb' b k = v.extractLsb' (a + b) k := by
  ext i hi
  simp [show b + i < m by omega, Nat.add_assoc]

/-- The frame of BUILD.S32: the command, then a group for each half of the scalar, high word first (R82, R113). -/
theorem encodeFields_scalarFields (cmd : Word) (v : Long) :
    encodeFields cmd (scalarFields v) =
      [cmd.extractLsb' 8 8, cmd.extractLsb' 0 8,
        v.extractLsb' 24 8, v.extractLsb' 16 8, crc8 (v.extractLsb' 24 8) (v.extractLsb' 16 8),
        v.extractLsb' 8 8, v.extractLsb' 0 8, crc8 (v.extractLsb' 8 8) (v.extractLsb' 0 8)] := by
  simp [encodeFields, scalarFields, fieldGroup, hiByte, loByte, extractLsb'_extractLsb']

/-- Settles O29: the frame is the one R113 writes out, and the worked frame is a case of it. -/
theorem buildS32Frame : Obligations.BuildS32Frame := by
  have hbuilt : ∀ cmd v s, Built (encodeFields cmd (scalarFields v)) s (loadFrame (encodeFields cmd (scalarFields v)) s) :=
    fun cmd v s => built_loadFrame (by simp [encodeFields_scalarFields]) s
  refine ⟨fun cmd v s => ⟨_, rfl, encodeFields_scalarFields cmd v ▸ hbuilt cmd v s⟩, fun s => ⟨_, rfl, ?_⟩⟩
  simp [encodeFields_scalarFields]

end Sys2Proof.Machine
end

section
/-! PROOFS. CRC8 and CRCCHK answer on every word, and write nothing but STATUS (R102, R104). -/

namespace Sys2Proof.Machine

/-- An operation that ends Ok by `return` alone (R13) has answered. -/
theorem answered_finish_ok (v : Option Long) (k : Option (BitVec 2)) (s : State) : Answered s (finish .ok v k s) :=
  ⟨rfl, rfl, ⟨fun _ => rfl, rfl⟩, ⟨fun _ => rfl, rfl, rfl⟩, rfl, rfl⟩

/-- CRC8 ends Ok with the word's checksum (R102). -/
theorem exec_crc8 (w : Word) (s : State) :
    exec (.crc8 w) s = .next (finish .ok (some (zextByte (crc8Word w))) none s) := rfl

/-- CRCCHK ends Ok whether or not the byte is the word's checksum (R104). -/
theorem exec_crcchk (w : Word) (c : Byte) (s : State) :
    exec (.crcchk w c) s = .next (finish .ok (some (if crc8Word w = c then 1#32 else 0#32)) none s) := rfl

/-- CRCCHK gives 1 on the word's checksum and on no other byte (R104). -/
theorem res_exec_crcchk_eq_one_iff {w : Word} {c : Byte} {s t : State} (h : exec (.crcchk w c) s = .next t) :
    t.res = some 1#32 ↔ c = crc8Word w := by
  obtain rfl := Host.Outcome.next.inj ((exec_crcchk w c s).symm.trans h)
  rw [finish_res]
  by_cases hc : crc8Word w = c
  · simp [hc]
  · simp [hc, Ne.symm hc]

/-- Settles O21: the final state is `finish .ok` of the word's checksum. -/
theorem crc8Answers : Obligations.Crc8Answers := fun w s => ⟨_, exec_crc8 w s, rfl, answered_finish_ok _ _ s⟩

/-- Settles O22: the one byte that gives 1 is the word's checksum. -/
theorem crcchkAnswers : Obligations.CrcchkAnswers :=
  ⟨fun w c s => ⟨_, exec_crcchk w c s, rfl, answered_finish_ok _ _ s⟩,
    fun w _ => ⟨crc8Word w, fun _ _ h => res_exec_crcchk_eq_one_iff h⟩⟩

end Sys2Proof.Machine
end

section
/-! PROOFS. The frames of field groups and the blob frame (R110 to R117). -/

namespace Sys2Proof.Machine

/-- A field's two bytes, the more significant first: the data word of its group (R110). -/
def fieldWord (f : Word) : Byte × Byte := (hiByte f, loByte f)

/-- After the command, a frame of fields is a stream of well-formed groups (R75, R110). -/
theorem encodeFields_eq_goodStream (cmd : Word) (fields : List Word) :
    encodeFields cmd fields = [hiByte cmd, loByte cmd] ++ goodStream (fields.map fieldWord) := by
  rw [goodStream, List.flatMap_map]
  rfl

/-- The command's two bytes and three bytes a field (R110). -/
theorem length_encodeFields (cmd : Word) (fields : List Word) :
    (encodeFields cmd fields).length = 2 + 3 * fields.length := by
  simp [encodeFields, fieldGroup, List.length_flatMap]
  omega

/-- What a BUILD does with at most nine fields, as many as `TX_LEN` can count the bytes of (R110, R118). -/
theorem built_encodeFields (cmd : Word) {fields : List Word} (h : fields.length < 10) (s : State) :
    Built (encodeFields cmd fields) s (loadFrame (encodeFields cmd fields) s) :=
  built_loadFrame (by rw [length_encodeFields]; omega) s

/-- Settles O27: the frame of no fields. -/
theorem buildNoneFrame : Obligations.BuildNoneFrame :=
  fun cmd s => ⟨_, rfl, built_encodeFields cmd (fields := []) (by simp) s⟩

/-- Settles O28: the frame of one field. -/
theorem buildS16Frame : Obligations.BuildS16Frame :=
  fun cmd v s => ⟨_, rfl, built_encodeFields cmd (fields := [v]) (by simp) s⟩

/-- Settles O30: the frame of three fields. -/
theorem buildTcompFrame : Obligations.BuildTcompFrame :=
  fun cmd f0 f1 f2 s => ⟨_, rfl, built_encodeFields cmd (fields := [f0, f1, f2]) (by simp) s⟩

/-- Settles O31: the frame of six fields is a stream of groups after the command, and has 2 + 3 * 6 bytes. -/
theorem buildTuneFrame : Obligations.BuildTuneFrame := by
  intro cmd f0 f1 f2 f3 f4 f5 s
  have hbuilt := built_encodeFields cmd (fields := [f0, f1, f2, f3, f4, f5]) (by simp) s
  refine ⟨_, rfl, ?_, encodeFields_eq_goodStream cmd [f0, f1, f2, f3, f4, f5] ▸ hbuilt⟩
  rw [loadFrame_txLen, length_encodeFields]
  rfl

/-- What BUILD.BLOB does with its frame of 13 bytes, whatever `BLOB_CRC3` is (R117, R118). -/
theorem built_blobFrame (crc3 : Byte → Byte → Byte → Byte) (cmd : Word) (b0 b1 b2 b3 b4 b5 b6 b7 : Byte) (s : State) :
    Built (blobFrame crc3 cmd b0 b1 b2 b3 b4 b5 b6 b7) s
      (loadFrame (blobFrame crc3 cmd b0 b1 b2 b3 b4 b5 b6 b7) s) :=
  built_loadFrame (by simp [blobFrame]) s

/-- Settles O32: the frame is loaded whatever `BLOB_CRC3` is, and the spec's example is evaluated with the default of R6. -/
theorem buildBlobFrame : Obligations.BuildBlobFrame := by
  refine ⟨fun cmd b0 b1 b2 b3 b4 b5 b6 b7 s => ⟨_, rfl, rfl, ?_⟩, by decide +kernel⟩
  exact built_blobFrame Config.blobCrc3 cmd b0 b1 b2 b3 b4 b5 b6 b7 s

end Sys2Proof.Machine
end

section
/-! PROOFS. REQLEN (R131); the operand check of READ (R133), and that a READ whose operands pass ends Ok with validated data
or in an error result with no receive buffer (R130, R134 to R136). -/

namespace Sys2Proof.Machine

/-! ## REQLEN -/

/-- REQLEN ends Ok with the request length under the machine's cap (R131). -/
theorem exec_reqlen (n : Byte) (s : State) :
    exec (.reqlen n) s =
      .next (finish .ok (some (BitVec.ofNat 32 (requestLength Config.rawCap n.toNat))) none s) := rfl

/-- A cap is a minimum. -/
theorem requestLength_some (cap n : Nat) : requestLength (some cap) n = min (n / 2 * 3) cap := by
  simp only [requestLength]
  split <;> omega

/-- No request is longer than three raw bytes for every two data bytes. -/
theorem requestLength_le (cap : Option Nat) (n : Nat) : requestLength cap n ≤ n / 2 * 3 := by
  cases cap with
  | none => exact le_rfl
  | some cap => rw [requestLength_some]; exact Nat.min_le_left _ _

/-- The result output holds the request length of a byte untruncated (R131: "up to 381"). -/
theorem toNat_ofNat_requestLength (cap : Option Nat) (n : Byte) :
    (BitVec.ofNat 32 (requestLength cap n.toNat)).toNat = requestLength cap n.toNat := by
  have hle := requestLength_le cap n.toNat
  have hn := n.isLt
  rw [BitVec.toNat_ofNat, Nat.mod_eq_of_lt (by omega)]

/-- Settles O34: the result is the request length, which fits the output. -/
theorem reqlenAnswers : Obligations.ReqlenAnswers := by
  refine fun n s => ⟨_, _, exec_reqlen n s, rfl, answered_finish_ok _ _ s, ?_⟩
  rw [toNat_ofNat_requestLength]
  cases Config.rawCap with
  | none => rfl
  | some cap => exact requestLength_some cap n.toNat

/-! ## READ -/

/-- READ with its reserved bits zero and more bytes asked for than the buffer holds (R133). -/
theorem exec_read_of_rxMax_lt {n fl : Byte} (hfl : fl &&& 0xFE#8 = 0#8) (hn : Config.rxMax < n.toNat) (s : State) :
    exec (.read n fl) s = .next (raise (.badOperand n) s) := by
  simp [exec, execRead, readReserved, hfl, Nat.not_le.mpr hn]

/-- Settles O35: the two faults of the operand check, the reserved bits first. -/
theorem readOperandCheck : Obligations.ReadOperandCheck := by
  refine fun n fl s => ⟨fun hfl => ?_, fun hfl hn => ?_⟩
  · exact ⟨_, exec_read_of_readReserved (bne_iff_ne.mpr hfl) n s, faultTaken_raise .illegalOp s⟩
  · exact ⟨_, exec_read_of_rxMax_lt hfl hn s, faultTaken_raise (.badOperand n) s⟩

/-- A READ that ends in an error result has failed, with as much consumed as the loop had reached (R136). -/
theorem readFailed_readError (r : Result) (c : Cursor) (s : State) :
    ReadFailed (resultCode r) c.rp s (readError r c s) :=
  ⟨rfl, rfl, rfl, rfl, rfl, ⟨fun _ => rfl, rfl⟩, rfl, rfl⟩

/-- A READ that ends Ok after keeping these words holds their bytes, if `RX_LEN` can count them (R134). -/
theorem readSucceeded_readOk {ws : List (Byte × Byte)} (h : 2 * ws.length < 256) (s : State) :
    ReadSucceeded (dataBytes ws) (3 * ws.length) s (readOk (cursorStart.after ws) s) := by
  have hrp : (cursorStart.after ws).rp = 3 * ws.length := by simp [Cursor.after]
  have hlen : (readOk (cursorStart.after ws) s).rxLen.toNat = (dataBytes ws).length := by
    simp [Cursor.after, Nat.mod_eq_of_lt h]
  refine ⟨rfl, holds_store (dataBytes ws) [], hlen, rfl, ?_, ?_, ⟨fun _ => rfl, rfl⟩, rfl, rfl⟩
  · rw [readOk_res, hrp]
  · rw [readOk_raw, hrp]

/-- The loop takes no group when no byte is asked for or fewer than three raw bytes are there (R135, R139). -/
theorem readLoop_cursorStart_of_no_data {n : Nat} {raw : List Byte} (z : Bool) (h : n = 0 ∨ raw.length < 3) :
    readLoop n z raw cursorStart = (.ended, cursorStart) := by
  obtain rfl | hshort := h
  · exact readLoop_full raw (Nat.zero_le _)
  · exact readLoop_short hshort

/-- A loop that ends with nothing collected is NoData (R137). -/
theorem readEnd_ended_cursorStart (n : Nat) (s : State) :
    readEnd n (.ended, cursorStart) s = readError .noData cursorStart s := rfl

/-- Settles O39: the loop ends where it starts. -/
theorem readWithoutDataIsNoData : Obligations.ReadWithoutDataIsNoData := by
  intro n fl s hok h
  have hnone : n.toNat = 0 ∨ s.raw.length < 3 := h.imp_left (congrArg BitVec.toNat)
  refine ⟨_, exec_read hok, ?_⟩
  rw [readLoop_cursorStart_of_no_data _ hnone, readEnd_ended_cursorStart]
  exact readFailed_readError .noData cursorStart s

/-- The codes of the error results (R170). -/
theorem resultCode_mem_of_ne_ok {r : Result} (h : r ≠ .ok) : resultCode r ∈ [1#4, 2#4, 3#4] := by
  cases r with
  | ok => exact absurd rfl h
  | checksumMismatch | lengthMismatch | noData => decide

/-- Settles O42: the two ways a READ can end, the words of the first fitting the buffer because `RX_MAX` is at most 254. -/
theorem readNeverAcceptsCorruptedData : Obligations.ReadNeverAcceptsCorruptedData := by
  intro n fl s hok
  refine ⟨_, exec_read hok, ?_⟩
  obtain ⟨ws, tail, hraw, hne, hlen, hextent, hend⟩ | ⟨r, c, hr, hend⟩ := readEnd_cases n.toNat (stopFlag fl) s
  · have hfit : 2 * ws.length < 256 := by
      have hn : n.toNat ≤ Config.rxMax := hok.2
      have hmax := rxMax_bounds
      omega
    exact .inl ⟨ws, tail, hraw, hne, hend ▸ readSucceeded_readOk hfit s, hextent⟩
  · exact .inr ⟨_, _, resultCode_mem_of_ne_ok hr, hend ▸ readFailed_readError r c s⟩

end Sys2Proof.Machine
end

section
/-! PROOFS. The six typed decodes: their checks in order (R150), and the value each delivers in range (R151 to R153, R159 to
R161). -/

namespace Sys2Proof.Machine

/-! ## The checks -/

section
variable {width : Nat} {off : Byte} {s : State}

/-- The first of the checks that every decode makes (R150 (2)). -/
theorem decodeField_of_invalid (hv : s.rxValid = false) (value : State → Long) (k : Option (BitVec 2)) :
    decodeField width off value k s = raise .bufferInvalid s := by
  simp [decodeField, decodeFault, hv]

/-- The second of them (R150 (3)). -/
theorem decodeField_of_out_of_range (hv : s.rxValid = true) (hr : s.rxLen.toNat < off.toNat + width)
    (value : State → Long) (k : Option (BitVec 2)) :
    decodeField width off value k s = raise (.offsetOutOfRange off) s := by
  simp [decodeField, decodeFault, hv, hr]

/-- A decode that passes both delivers its value. -/
theorem decodeField_of_in_range (hv : s.rxValid = true) (hr : off.toNat + width ≤ s.rxLen.toNat)
    (value : State → Long) (k : Option (BitVec 2)) :
    decodeField width off value k s = finish .ok (some (value s)) k s := by
  simp [decodeField, decodeFault, hv, Nat.not_lt.mpr hr]

/-- A scaled decode with a legal selector is a decode that delivers the selector too (R157). -/
theorem decodeScaled_of_legal {ks : Byte} (hks : ks &&& 0xFC#8 = 0#8) (value : State → Long) :
    decodeScaled width off ks value s = decodeField width off value (some (scaleSelector ks)) s :=
  if_neg (by simp [scaleReserved, hks])

/-- A scaled decode that passes all its checks delivers its value and its selector. -/
theorem decodeScaled_of_in_range {ks : Byte} (hks : ks &&& 0xFC#8 = 0#8) (hv : s.rxValid = true)
    (hr : off.toNat + width ≤ s.rxLen.toNat) (value : State → Long) :
    decodeScaled width off ks value s = finish .ok (some (value s)) (some (scaleSelector ks)) s :=
  (decodeScaled_of_legal hks value).trans (decodeField_of_in_range hv hr value _)

end

section
variable {i : Instr} {width : Nat} {off : Byte} (hi : decodeRange i = some (width, off)) (s : State)
include hi

/-- A decode with reserved bits set, which only a scaled one has, raises IllegalOp (R150 (1), R87). -/
theorem exec_of_decodeRange_of_not_wf (hwf : i.wf = false) : exec i s = .next (raise .illegalOp s) := by
  cases i with
  | sdecU16 _ ks | sdecI16 _ ks | sdecU32 _ ks =>
    have hks : scaleReserved ks = true := bne_iff_ne.mpr (beq_eq_false_iff_ne.mp hwf)
    exact congrArg Host.Outcome.next (decodeScaled_of_scaleReserved hks _ _ _ s)
  | decU16 | decI16 | decU32 => cases hwf
  | crc8 | crcchk | buildNone | buildS16 | buildS32 | buildTcomp | buildTune | buildBlob | reqlen | read => cases hi

/-- A decode with no reserved bit set reads a field of the receive buffer, scaled or not. -/
theorem exec_of_decodeRange_of_wf (hwf : i.wf = true) :
    ∃ value k, exec i s = .next (decodeField width off value k s) := by
  cases i with
  | sdecU16 | sdecI16 | sdecU32 =>
    cases hi
    exact ⟨_, _, congrArg Host.Outcome.next (decodeScaled_of_legal (beq_iff_eq.mp hwf) _)⟩
  | decU16 | decI16 | decU32 => cases hi; exact ⟨_, _, rfl⟩
  | crc8 | crcchk | buildNone | buildS16 | buildS32 | buildTcomp | buildTune | buildBlob | reqlen | read => cases hi

theorem illegalOp_of_not_wf (hwf : i.wf = false) : ∃ t, exec i s = .next t ∧ FaultTaken 8#4 s t :=
  ⟨_, exec_of_decodeRange_of_not_wf hi s hwf, faultTaken_raise .illegalOp s⟩

theorem rangeFaults_of_wf (hwf : i.wf = true) : RangeFaults i width off s := by
  obtain ⟨value, k, hexec⟩ := exec_of_decodeRange_of_wf hi s hwf
  refine ⟨fun hv => ⟨_, hexec, ?_⟩, fun hv hr => ⟨_, hexec, ?_⟩⟩
  · exact decodeField_of_invalid hv value k ▸ faultTaken_raise .bufferInvalid s
  · exact decodeField_of_out_of_range hv hr value k ▸ faultTaken_raise (.offsetOutOfRange off) s

/-- The faults of a scaled decode, by its selector byte. -/
theorem scaledFaults {ks : Byte} (hwf : i.wf = (ks &&& 0xFC#8 == 0#8)) :
    (ks &&& 0xFC#8 ≠ 0#8 → ∃ t, exec i s = .next t ∧ FaultTaken 8#4 s t) ∧
      (ks &&& 0xFC#8 = 0#8 → RangeFaults i width off s) :=
  ⟨fun hks => illegalOp_of_not_wf hi s (hwf.trans (beq_eq_false_iff_ne.mpr hks)),
    fun hks => rangeFaults_of_wf hi s (hwf.trans (beq_iff_eq.mpr hks))⟩

end

/-- Settles O48: reserved bits stop a decode before it reads the buffer, and a decode without them makes the two checks of
the buffer in order. -/
theorem decodeChecksInOrder : Obligations.DecodeChecksInOrder := by
  refine fun i width off s hi => ⟨illegalOp_of_not_wf hi s, forall_and.mp fun hwf => ?_⟩
  exact rangeFaults_of_wf hi s hwf

/-! ## The values -/

/-- A byte appended below a value. -/
theorem toNat_append_byte {n : Nat} (v : BitVec n) (b : Byte) : (v ++ b).toNat = v.toNat * 256 + b.toNat := by
  rw [BitVec.toNat_append, ← Nat.shiftLeft_add_eq_or_of_lt b.isLt, Nat.shiftLeft_eq]

/-- `MemRead(a, 2)` as a number (R151). -/
theorem toNat_memRead2 (s : State) (a : Nat) :
    (memRead2 s a).toNat = (rxByte s a).toNat * 256 + (rxByte s (a + 1)).toNat :=
  toNat_append_byte _ _

/-- `MemRead(a, 4)` as a number (R153). -/
theorem toNat_memRead4 (s : State) (a : Nat) :
    (memRead4 s a).toNat = (rxByte s a).toNat * 2 ^ 24 + (rxByte s (a + 1)).toNat * 2 ^ 16 +
      (rxByte s (a + 2)).toNat * 2 ^ 8 + (rxByte s (a + 3)).toNat := by
  simp only [memRead4, toNat_append_byte]
  omega

/-- Widening with zeros keeps the unsigned value (R11). -/
theorem toNat_zext32 (v : Word) : (zext32 v).toNat = v.toNat :=
  BitVec.toNat_setWidth_of_le (by decide)

/-- Widening with the sign keeps the signed value, `signed_16` of R152. -/
theorem toInt_sext32 (v : Word) :
    (sext32 v).toInt = if v.toNat < 32768 then (v.toNat : Int) else (v.toNat : Int) - 65536 := by
  have hkeep : (sext32 v).toInt = v.toInt := BitVec.toInt_signExtend_of_le (by decide)
  have hhalf : 2 * v.toNat < 2 ^ 16 ↔ v.toNat < 32768 := by omega
  simp only [hkeep, BitVec.toInt_eq_toNat_cond, hhalf]
  rfl

theorem toNat_zext32_memRead2 (s : State) (a : Nat) :
    (zext32 (memRead2 s a)).toNat = (rxByte s a).toNat * 256 + (rxByte s (a + 1)).toNat :=
  (toNat_zext32 _).trans (toNat_memRead2 s a)

theorem toInt_sext32_memRead2 (s : State) (a : Nat) (u : Nat)
    (hu : u = (rxByte s a).toNat * 256 + (rxByte s (a + 1)).toNat) :
    (sext32 (memRead2 s a)).toInt = if u < 32768 then (u : Int) else (u : Int) - 65536 := by
  rw [toInt_sext32, toNat_memRead2, hu]

/-- A selector byte with its reserved bits zero selects the constant it names (R84, R158). -/
theorem scaleConstant_of_legal {ks : Byte} (hks : ks &&& 0xFC#8 = 0#8) :
    (scaleConstant (ks.extractLsb' 0 2) : ℚ) = namedScale ks := by
  have hfour : ks = 0#8 ∨ ks = 1#8 ∨ ks = 2#8 ∨ ks = 3#8 := by
    revert ks; decide
  obtain rfl | rfl | rfl | rfl := hfour <;> simp [scaleConstant, namedScale]

theorem scaledUnsigned_of_legal {ks : Byte} (hks : ks &&& 0xFC#8 = 0#8) (r : Long) :
    scaledUnsigned r (ks.extractLsb' 0 2) = (r.toNat : ℚ) / namedScale ks := by
  rw [scaledUnsigned, scaleConstant_of_legal hks]

theorem scaledSigned_of_legal {ks : Byte} (hks : ks &&& 0xFC#8 = 0#8) (r : Long) :
    scaledSigned r (ks.extractLsb' 0 2) = (r.toInt : ℚ) / namedScale ks := by
  rw [scaledSigned, scaleConstant_of_legal hks]

/-! ## The decodes in range -/

section
variable {off : Byte} {s : State} (hv : s.rxValid = true)
include hv

theorem exec_decU16_of_in_range (hr : off.toNat + 2 ≤ s.rxLen.toNat) :
    exec (.decU16 off) s = .next (finish .ok (some (zext32 (memRead2 s off.toNat))) none s) :=
  congrArg Host.Outcome.next (decodeField_of_in_range hv hr _ _)

theorem exec_decI16_of_in_range (hr : off.toNat + 2 ≤ s.rxLen.toNat) :
    exec (.decI16 off) s = .next (finish .ok (some (sext32 (memRead2 s off.toNat))) none s) :=
  congrArg Host.Outcome.next (decodeField_of_in_range hv hr _ _)

theorem exec_decU32_of_in_range (hr : off.toNat + 4 ≤ s.rxLen.toNat) :
    exec (.decU32 off) s = .next (finish .ok (some (memRead4 s off.toNat)) none s) :=
  congrArg Host.Outcome.next (decodeField_of_in_range hv hr _ _)

variable {ks : Byte} (hks : ks &&& 0xFC#8 = 0#8)
include hks

theorem exec_sdecU16_of_in_range (hr : off.toNat + 2 ≤ s.rxLen.toNat) :
    exec (.sdecU16 off ks) s =
      .next (finish .ok (some (zext32 (memRead2 s off.toNat))) (some (scaleSelector ks)) s) :=
  congrArg Host.Outcome.next (decodeScaled_of_in_range hks hv hr _)

theorem exec_sdecI16_of_in_range (hr : off.toNat + 2 ≤ s.rxLen.toNat) :
    exec (.sdecI16 off ks) s =
      .next (finish .ok (some (sext32 (memRead2 s off.toNat))) (some (scaleSelector ks)) s) :=
  congrArg Host.Outcome.next (decodeScaled_of_in_range hks hv hr _)

theorem exec_sdecU32_of_in_range (hr : off.toNat + 4 ≤ s.rxLen.toNat) :
    exec (.sdecU32 off ks) s = .next (finish .ok (some (memRead4 s off.toNat)) (some (scaleSelector ks)) s) :=
  congrArg Host.Outcome.next (decodeScaled_of_in_range hks hv hr _)

end

/-- Settles O49: in range the result is two bytes widened with zeros. -/
theorem decU16Value : Obligations.DecU16Value := by
  refine ⟨fun off s hv hr => ?_, fun off s => rangeFaults_of_wf rfl s rfl⟩
  exact ⟨_, _, exec_decU16_of_in_range hv hr, rfl, answered_finish_ok _ _ s, toNat_zext32_memRead2 s _⟩

/-- Settles O50: in range the result is two bytes widened with their sign. -/
theorem decI16Value : Obligations.DecI16Value := by
  refine ⟨fun off s hv hr => ?_, fun off s => rangeFaults_of_wf rfl s rfl⟩
  exact ⟨_, _, exec_decI16_of_in_range hv hr, rfl, answered_finish_ok _ _ s, toInt_sext32_memRead2 s _⟩

/-- Settles O51: in range the result is four bytes. -/
theorem decU32Value : Obligations.DecU32Value := by
  refine ⟨fun off s hv hr => ?_, fun off s => rangeFaults_of_wf rfl s rfl⟩
  exact ⟨_, _, exec_decU32_of_in_range hv hr, rfl, answered_finish_ok _ _ s, toNat_memRead4 s _⟩

/-- Settles O52: the result of DEC.U16 over the constant that the selector names. -/
theorem sdecU16Value : Obligations.SdecU16Value := by
  refine ⟨fun off ks s hks hv hr => ?_, fun off ks s => scaledFaults rfl s rfl⟩
  exact ⟨_, _, exec_sdecU16_of_in_range hv hks hr, rfl, rfl, answered_finish_ok _ _ s, toNat_zext32_memRead2 s _,
    scaledUnsigned_of_legal hks _⟩

/-- Settles O53: the result of DEC.I16 over the constant that the selector names. -/
theorem sdecI16Value : Obligations.SdecI16Value := by
  refine ⟨fun off ks s hks hv hr => ?_, fun off ks s => scaledFaults rfl s rfl⟩
  exact ⟨_, _, exec_sdecI16_of_in_range hv hks hr, rfl, rfl, answered_finish_ok _ _ s, toInt_sext32_memRead2 s _,
    scaledSigned_of_legal hks _⟩

/-- Settles O54: the result of DEC.U32 over the constant that the selector names. -/
theorem sdecU32Value : Obligations.SdecU32Value := by
  refine ⟨fun off ks s hks hv hr => ?_, fun off ks s => scaledFaults rfl s rfl⟩
  exact ⟨_, _, exec_sdecU32_of_in_range hv hks hr, rfl, rfl, answered_finish_ok _ _ s, toNat_memRead4 s _,
    scaledUnsigned_of_legal hks _⟩

end Sys2Proof.Machine
end

section
/-! PROOFS. Reset as a step (R190), and FAULT as sticky under every other step (R28). -/

namespace Sys2Proof.Machine

/-- No operation clears FAULT (R28): a fault sets it, and every other end of an operation keeps it. -/
theorem exec_keeps_fault {i : Instr} {s t : State} (h : exec i s = .next t) (hf : s.fault = true) :
    t.fault = true := by
  obtain ⟨f, rfl⟩ | ⟨v, k, rfl⟩ | ⟨frame, -, -, rfl⟩ | ⟨n, fl, -, -, rfl⟩ := exec_cases h
  · exact raise_fault f s
  · exact hf
  · exact hf
  · obtain ⟨ws, -, -, -, -, -, e⟩ | ⟨r, c, -, e⟩ := readEnd_cases n.toNat (stopFlag fl) s
    · rw [e, readOk_fault, hf]
    · rw [e, readError_fault, hf]

/-- A step that starts with FAULT set either is a reset or leaves it set (R190). -/
theorem step_keeps_fault_or_reset {s t : State} (h : step s = .next t) (hf : s.fault = true) :
    t.fault = true ∨ ∃ later, s.pending = .reset :: later := by
  obtain ⟨-, rfl⟩ | ⟨later, hp, -⟩ | ⟨_, raw, later, _, left, -, -, rfl⟩ | ⟨_, _, _, _, _, -, -, hexec⟩ := step_cases h
  · exact .inl hf
  · exact .inr ⟨later, hp⟩
  · exact .inl (raise_fault .illegalOp (accept left raw later s))
  · exact .inl (exec_keeps_fault hexec hf)

/-- Settles O12: a reset step answers R34's values, and every other step keeps FAULT once it is set. -/
theorem resetStepAloneClearsFault : Obligations.ResetStepAloneClearsFault := by
  refine ⟨fun s later hp => ⟨applyReset later, step_of_pending_reset hp, resetValues⟩, fun s t hbad h hgood => ?_⟩
  exact (step_keeps_fault_or_reset h (eq_true_of_ne_false hbad)).resolve_left (ne_true_of_eq_false hgood)

end Sys2Proof.Machine
end

section
/-! PROOFS. Descriptors: the encoder and the decoder undo each other, a proper front of a descriptor is not complete, and a
table word runs as the operation it encodes (R79 to R89). -/

namespace Sys2Proof.Machine

/-! ## The bytes of a value -/

/-- The two bytes of a word make the word. -/
theorem append_beBytes16 (v : Word) : v.extractLsb' 8 8 ++ v.extractLsb' 0 8 = v := by
  rw [BitVec.extractLsb'_append_extractLsb'_eq_extractLsb' (by rfl)]
  exact BitVec.extractLsb'_eq_self

/-- The four bytes of a 32-bit value make the value. -/
theorem append_beBytes32 (v : Long) :
    v.extractLsb' 24 8 ++ v.extractLsb' 16 8 ++ v.extractLsb' 8 8 ++ v.extractLsb' 0 8 = v := by
  iterate 3 rw [BitVec.extractLsb'_append_extractLsb'_eq_extractLsb' (by rfl)]
  exact BitVec.extractLsb'_eq_self

/-- The two bytes of a word made of two bytes. -/
theorem beBytes16_append (h l : Byte) : beBytes16 (h ++ l) = [h, l] := by
  rw [beBytes16, BitVec.extractLsb'_append_eq_left, BitVec.extractLsb'_append_eq_right]

/-- The four bytes of a 32-bit value, from its number. -/
theorem beBytes32_of_toNat {v : Long} {b3 b2 b1 b0 : Byte}
    (hv : v.toNat = ((b3.toNat * 256 + b2.toNat) * 256 + b1.toNat) * 256 + b0.toNat) :
    beBytes32 v = [b3, b2, b1, b0] := by
  simp only [beBytes32, List.cons.injEq, and_true, BitVec.toNat_eq, BitVec.extractLsb'_toNat, Nat.shiftRight_eq_div_pow]
  omega

/-- The four bytes of a 32-bit value made of four bytes. -/
theorem beBytes32_append (b3 b2 b1 b0 : Byte) : beBytes32 (b3 ++ b2 ++ b1 ++ b0) = [b3, b2, b1, b0] :=
  beBytes32_of_toNat (by rw [toNat_append_byte, toNat_append_byte, toNat_append_byte])

/-! ## The operand formats

The decoder of each format of R80 reads exactly what the format's encoder writes. -/

section
variable {ops rest : List Byte} {i : Instr}

theorem decodeW_eq_instr_iff {mk : Word → Instr} :
    decodeW mk ops = .instr i rest ↔ ∃ w, mk w = i ∧ beBytes16 w ++ rest = ops := by
  constructor
  · intro h
    unfold decodeW at h
    split at h <;> cases h
    exact ⟨_, rfl, by simp [beBytes16_append]⟩
  · rintro ⟨w, rfl, rfl⟩
    simp [decodeW, beBytes16, append_beBytes16]

theorem decodeWC_eq_instr_iff {mk : Word → Byte → Instr} :
    decodeWC mk ops = .instr i rest ↔ ∃ w c, mk w c = i ∧ beBytes16 w ++ [c] ++ rest = ops := by
  constructor
  · intro h
    unfold decodeWC at h
    split at h <;> cases h
    exact ⟨_, _, rfl, by simp [beBytes16_append]⟩
  · rintro ⟨w, c, rfl, rfl⟩
    simp [decodeWC, beBytes16, append_beBytes16]

theorem decodeB0_eq_instr_iff {mk : Word → Instr} :
    decodeB0 mk ops = .instr i rest ↔ ∃ cmd, mk cmd = i ∧ beBytes16 cmd ++ rest = ops :=
  decodeW_eq_instr_iff

theorem decodeB1_eq_instr_iff {mk : Word → Word → Instr} :
    decodeB1 mk ops = .instr i rest ↔ ∃ cmd v, mk cmd v = i ∧ beBytes16 cmd ++ beBytes16 v ++ rest = ops := by
  constructor
  · intro h
    unfold decodeB1 at h
    split at h <;> cases h
    exact ⟨_, _, rfl, by simp [beBytes16_append]⟩
  · rintro ⟨cmd, v, rfl, rfl⟩
    simp [decodeB1, beBytes16, append_beBytes16]

theorem decodeB2_eq_instr_iff {mk : Word → Long → Instr} :
    decodeB2 mk ops = .instr i rest ↔ ∃ cmd v, mk cmd v = i ∧ beBytes16 cmd ++ beBytes32 v ++ rest = ops := by
  constructor
  · intro h
    unfold decodeB2 at h
    split at h <;> cases h
    exact ⟨_, _, rfl, by simp [beBytes16_append, beBytes32_append]⟩
  · rintro ⟨cmd, v, rfl, rfl⟩
    simp [decodeB2, beBytes16, append_beBytes16, beBytes32, append_beBytes32]

theorem decodeB3_eq_instr_iff {mk : Word → Word → Word → Word → Instr} :
    decodeB3 mk ops = .instr i rest ↔ ∃ cmd f0 f1 f2, mk cmd f0 f1 f2 = i ∧
      beBytes16 cmd ++ beBytes16 f0 ++ beBytes16 f1 ++ beBytes16 f2 ++ rest = ops := by
  constructor
  · intro h
    unfold decodeB3 at h
    split at h <;> cases h
    exact ⟨_, _, _, _, rfl, by simp [beBytes16_append]⟩
  · rintro ⟨cmd, f0, f1, f2, rfl, rfl⟩
    simp [decodeB3, beBytes16, append_beBytes16]

theorem decodeB6_eq_instr_iff {mk : Word → Word → Word → Word → Word → Word → Word → Instr} :
    decodeB6 mk ops = .instr i rest ↔ ∃ cmd f0 f1 f2 f3 f4 f5, mk cmd f0 f1 f2 f3 f4 f5 = i ∧
      beBytes16 cmd ++ beBytes16 f0 ++ beBytes16 f1 ++ beBytes16 f2 ++ beBytes16 f3 ++ beBytes16 f4 ++ beBytes16 f5 ++
        rest = ops := by
  constructor
  · intro h
    unfold decodeB6 at h
    split at h <;> cases h
    exact ⟨_, _, _, _, _, _, _, rfl, by simp [beBytes16_append]⟩
  · rintro ⟨cmd, f0, f1, f2, f3, f4, f5, rfl, rfl⟩
    simp [decodeB6, beBytes16, append_beBytes16]

theorem decodeBB_eq_instr_iff {mk : Word → Byte → Byte → Byte → Byte → Byte → Byte → Byte → Byte → Instr} :
    decodeBB mk ops = .instr i rest ↔ ∃ cmd b0 b1 b2 b3 b4 b5 b6 b7, mk cmd b0 b1 b2 b3 b4 b5 b6 b7 = i ∧
      beBytes16 cmd ++ [b0, b1, b2, b3, b4, b5, b6, b7] ++ rest = ops := by
  constructor
  · intro h
    unfold decodeBB at h
    split at h <;> cases h
    exact ⟨_, _, _, _, _, _, _, _, _, rfl, by simp [beBytes16_append]⟩
  · rintro ⟨cmd, b0, b1, b2, b3, b4, b5, b6, b7, rfl, rfl⟩
    simp [decodeBB, beBytes16, append_beBytes16]

theorem decodeN_eq_instr_iff {mk : Byte → Instr} :
    decodeN mk ops = .instr i rest ↔ ∃ n, mk n = i ∧ [n] ++ rest = ops := by
  constructor
  · intro h
    unfold decodeN at h
    split at h <;> cases h
    exact ⟨_, rfl, rfl⟩
  · rintro ⟨n, rfl, rfl⟩
    rfl

theorem decodeNZ_eq_instr_iff {mk : Byte → Byte → Instr} :
    decodeNZ mk ops = .instr i rest ↔ ∃ n fl, mk n fl = i ∧ [n, fl] ++ rest = ops := by
  constructor
  · intro h
    unfold decodeNZ at h
    split at h <;> cases h
    exact ⟨_, _, rfl, rfl⟩
  · rintro ⟨n, fl, rfl, rfl⟩
    rfl

theorem decodeO_eq_instr_iff {mk : Byte → Instr} :
    decodeO mk ops = .instr i rest ↔ ∃ off, mk off = i ∧ [off] ++ rest = ops :=
  decodeN_eq_instr_iff

theorem decodeOK_eq_instr_iff {mk : Byte → Byte → Instr} :
    decodeOK mk ops = .instr i rest ↔ ∃ off ks, mk off ks = i ∧ [off, ks] ++ rest = ops :=
  decodeNZ_eq_instr_iff

end

/-! ## Decoding and encoding -/

/-- Decoding undoes encoding, whatever follows the descriptor (R79). -/
theorem decode_encode_append (i : Instr) (rest : List Byte) : decode (encode i ++ rest) = .instr i rest := by
  cases i with
  | crc8 => exact decodeW_eq_instr_iff.mpr ⟨_, rfl, rfl⟩
  | crcchk => exact decodeWC_eq_instr_iff.mpr ⟨_, _, rfl, rfl⟩
  | buildNone => exact decodeB0_eq_instr_iff.mpr ⟨_, rfl, rfl⟩
  | buildS16 => exact decodeB1_eq_instr_iff.mpr ⟨_, _, rfl, rfl⟩
  | buildS32 => exact decodeB2_eq_instr_iff.mpr ⟨_, _, rfl, rfl⟩
  | buildTcomp => exact decodeB3_eq_instr_iff.mpr ⟨_, _, _, _, rfl, rfl⟩
  | buildTune => exact decodeB6_eq_instr_iff.mpr ⟨_, _, _, _, _, _, _, rfl, rfl⟩
  | buildBlob => exact decodeBB_eq_instr_iff.mpr ⟨_, _, _, _, _, _, _, _, _, rfl, rfl⟩
  | reqlen => exact decodeN_eq_instr_iff.mpr ⟨_, rfl, rfl⟩
  | read => exact decodeNZ_eq_instr_iff.mpr ⟨_, _, rfl, rfl⟩
  | decU16 | decI16 | decU32 => exact decodeO_eq_instr_iff.mpr ⟨_, rfl, rfl⟩
  | sdecU16 | sdecI16 | sdecU32 => exact decodeOK_eq_instr_iff.mpr ⟨_, _, rfl, rfl⟩

/-- Settles O1: `decode_encode_append`. -/
theorem decodeOfEncode : Obligations.DecodeOfEncode := decode_encode_append

/-- What decodes to an operation is the operation's descriptor and what follows it (R79, R89). -/
theorem eq_encode_append_of_decode {bs rest : List Byte} {i : Instr} (h : decode bs = .instr i rest) :
    bs = encode i ++ rest := by
  cases bs with
  | nil => cases h
  | cons opc ops =>
    have code : ∀ {k : Nat}, opc.toNat = k → opc = BitVec.ofNat 8 k := by rintro k rfl; simp
    unfold decode at h
    dsimp only at h
    split at h
    case h_17 => cases h
    case h_1 hk => obtain ⟨_, rfl, rfl⟩ := decodeW_eq_instr_iff.mp h; rw [code hk]; rfl
    case h_2 hk => obtain ⟨_, _, rfl, rfl⟩ := decodeWC_eq_instr_iff.mp h; rw [code hk]; rfl
    case h_3 hk => obtain ⟨_, rfl, rfl⟩ := decodeB0_eq_instr_iff.mp h; rw [code hk]; rfl
    case h_4 hk => obtain ⟨_, _, rfl, rfl⟩ := decodeB1_eq_instr_iff.mp h; rw [code hk]; rfl
    case h_5 hk => obtain ⟨_, _, rfl, rfl⟩ := decodeB2_eq_instr_iff.mp h; rw [code hk]; rfl
    case h_6 hk => obtain ⟨_, _, _, _, rfl, rfl⟩ := decodeB3_eq_instr_iff.mp h; rw [code hk]; rfl
    case h_7 hk => obtain ⟨_, _, _, _, _, _, _, rfl, rfl⟩ := decodeB6_eq_instr_iff.mp h; rw [code hk]; rfl
    case h_8 hk => obtain ⟨_, _, _, _, _, _, _, _, _, rfl, rfl⟩ := decodeBB_eq_instr_iff.mp h; rw [code hk]; rfl
    case h_9 hk => obtain ⟨_, rfl, rfl⟩ := decodeN_eq_instr_iff.mp h; rw [code hk]; rfl
    case h_10 hk => obtain ⟨_, _, rfl, rfl⟩ := decodeNZ_eq_instr_iff.mp h; rw [code hk]; rfl
    case h_11 hk | h_12 hk | h_13 hk => obtain ⟨_, rfl, rfl⟩ := decodeO_eq_instr_iff.mp h; rw [code hk]; rfl
    case h_14 hk | h_15 hk | h_16 hk => obtain ⟨_, _, rfl, rfl⟩ := decodeOK_eq_instr_iff.mp h; rw [code hk]; rfl

/-- Settles O2: `eq_encode_append_of_decode`. -/
theorem decodedBytesAreTheDescriptor : Obligations.DecodedBytesAreTheDescriptor :=
  fun _ _ _ => eq_encode_append_of_decode

/-! ## Lengths -/

/-- A descriptor has the length of its code (R85, R89). -/
theorem length_encode (i : Instr) : (encode i).length = descriptorLength (opcode i) := by
  cases i <;> rfl

theorem descriptorLength_le (opc : Byte) : descriptorLength opc ≤ 15 := by
  unfold descriptorLength
  split <;> decide

/-- No operation has a reserved code (R85, R86). -/
theorem opcode_not_reserved (i : Instr) : Laws.Opcode.Statement i := by
  cases i with
  | crc8 => exact Laws.Opcode.crc8 _
  | crcchk => exact Laws.Opcode.crcchk _ _
  | buildNone => exact Laws.Opcode.buildNone _
  | buildS16 => exact Laws.Opcode.buildS16 _ _
  | buildS32 => exact Laws.Opcode.buildS32 _ _
  | buildTcomp => exact Laws.Opcode.buildTcomp _ _ _ _
  | buildTune => exact Laws.Opcode.buildTune _ _ _ _ _ _ _
  | buildBlob => exact Laws.Opcode.buildBlob _ _ _ _ _ _ _ _ _
  | reqlen => exact Laws.Opcode.reqlen _
  | read => exact Laws.Opcode.read _ _
  | decU16 => exact Laws.Opcode.decU16 _
  | decI16 => exact Laws.Opcode.decI16 _
  | decU32 => exact Laws.Opcode.decU32 _
  | sdecU16 => exact Laws.Opcode.sdecU16 _ _
  | sdecI16 => exact Laws.Opcode.sdecI16 _ _
  | sdecU32 => exact Laws.Opcode.sdecU32 _ _

/-- A proper front of a descriptor is not complete (R89): were it one, it would begin with the same code, and so be as long
as the whole. -/
theorem decode_take_encode {i : Instr} {k : Nat} (hk : k < (encode i).length) :
    decode ((encode i).take k) = .incomplete := by
  cases k with
  | zero => rfl
  | succ k =>
    have hfront : (encode i).take (k + 1) = opcode i :: (operandBytes i).take k := rfl
    rw [hfront]
    cases h : decode (opcode i :: (operandBytes i).take k) with
    | incomplete => rfl
    | reserved opc left => exact absurd h ((opcode_not_reserved i).2 _ opc left)
    | instr j rest =>
      have heq : opcode i :: (operandBytes i).take k = opcode j :: (operandBytes j ++ rest) :=
        eq_encode_append_of_decode h
      have hlong : (encode j).length ≤ ((encode i).take (k + 1)).length := by
        rw [hfront, heq]
        simp [encode]
      rw [length_encode, ← (List.cons.inj heq).1, ← length_encode, List.length_take] at hlong
      omega

/-- Settles O3: the length is the code's, which R85 bounds, and fronts are incomplete by `decode_take_encode`. -/
theorem descriptorLengthByCode : Obligations.DescriptorLengthByCode := fun i =>
  ⟨length_encode i, length_encode i ▸ (opcode_not_reserved i).1, length_encode i ▸ descriptorLength_le _,
    fun _ => decode_take_encode⟩

/-! ## The step on a descriptor -/

/-- Bytes left over after a descriptor stay presented (entry 7). -/
theorem presentRest_eq (left : List Byte) (later : List HostStep) :
    presentRest left later = if left = [] then later else .op left [] :: later := by
  cases left <;> simp [presentRest]

/-- The step on bytes that decode to an operation is the operation (R8). -/
theorem step_of_instr {s : State} {d raw left : List Byte} {later : List HostStep} {i : Instr}
    (hp : s.pending = .op d raw :: later) (hd : decode d = .instr i left) :
    step s = exec i (accept left raw later s) := by
  simp [step, hp, hd]

/-- Settles O6: `step_of_instr`, with what `accept` does written out. -/
theorem stepRunsTheDecodedOperation : Obligations.StepRunsTheDecodedOperation := by
  intro s d raw left later i hp hd
  rw [step_of_instr hp hd, accept, presentRest_eq]

/-! ## Table words -/

/-- The number of a byte string is accumulated from the front (R79). -/
theorem foldl_bigEndian (bs : List Byte) (acc : Nat) :
    bs.foldl (fun acc b => acc * 256 + b.toNat) acc = acc * 256 ^ bs.length + bigEndianNumber bs := by
  induction bs generalizing acc with
  | nil => simp [bigEndianNumber]
  | cons b bs ih =>
    rw [bigEndianNumber, List.foldl_cons, List.foldl_cons, ih, ih, List.length_cons]
    ring

theorem bigEndianNumber_cons (b : Byte) (bs : List Byte) :
    bigEndianNumber (b :: bs) = b.toNat * 256 ^ bs.length + bigEndianNumber bs := by
  rw [← foldl_bigEndian]
  simp [bigEndianNumber]

theorem bigEndianNumber_lt (bs : List Byte) : bigEndianNumber bs < 256 ^ bs.length := by
  induction bs with
  | nil => decide
  | cons b bs ih =>
    have hb : b.toNat * 256 ^ bs.length ≤ 255 * 256 ^ bs.length := Nat.mul_le_mul_right _ (by omega)
    rw [bigEndianNumber_cons, List.length_cons, Nat.pow_succ]
    omega

/-- Only the low bytes of a number count (R79). -/
theorem bigEndianBytes_add_mul (k a w : Nat) : bigEndianBytes k (a * 256 ^ k + w) = bigEndianBytes k w := by
  induction k generalizing a with
  | zero => rfl
  | succ k ih =>
    have hsplit : a * 256 ^ (k + 1) + w = a * 256 * 256 ^ k + w := by ring
    have hbyte : (a * 256 * 256 ^ k + w) / 256 ^ k = w / 256 ^ k + a * 256 := by
      rw [Nat.add_comm, Nat.add_mul_div_right _ _ (by positivity)]
    rw [bigEndianBytes, bigEndianBytes, hsplit, ih, hbyte]
    congr 1
    apply BitVec.eq_of_toNat_eq
    simp

/-- The bytes of the number of a byte string (R79). -/
theorem bigEndianBytes_bigEndianNumber (bs : List Byte) : bigEndianBytes bs.length (bigEndianNumber bs) = bs := by
  induction bs with
  | nil => rfl
  | cons b bs ih =>
    rw [List.length_cons, bigEndianBytes, bigEndianNumber_cons, bigEndianBytes_add_mul, ih, Nat.add_comm,
      Nat.add_mul_div_right _ _ (by positivity), Nat.div_eq_of_lt (bigEndianNumber_lt bs)]
    simp

/-- A whole descriptor needs no padding (entry 8). -/
theorem padDescriptor_encode (i : Instr) : padDescriptor (encode i) = encode i := by
  have hlen : descriptorLength (opcode i) - (encode i).length = 0 := by rw [length_encode, Nat.sub_self]
  have hpad : padDescriptor (encode i) =
      encode i ++ List.replicate (descriptorLength (opcode i) - (encode i).length) 0#8 := rfl
  rw [hpad, hlen, List.replicate_zero, List.append_nil]

/-- The table word of an operation stands for its descriptor (R79). -/
theorem tableBytes_encode (i : Instr) :
    tableBytes (8 * (encode i).length) (bigEndianNumber (encode i)) = encode i := by
  rw [tableBytes, Nat.mul_div_cancel_left _ (by decide), bigEndianBytes_bigEndianNumber, padDescriptor_encode]

/-- A descriptor decodes to its operation, with nothing left. -/
theorem decode_encode (i : Instr) : decode (encode i) = .instr i [] := by
  rw [← decode_encode_append i [], List.append_nil]

/-- Settles O5: the table word stands for the descriptor, which is all that the step takes. -/
theorem tableWordRuns : Obligations.TableWordRuns := by
  refine fun i s => ⟨?_, ?_⟩
  · rw [decodeTableWord, tableBytes_encode, decode_encode]
  · exact step_of_instr (s := s.withFetchWord _ _) rfl (tableBytes_encode i ▸ decode_encode i)

/-- Settles O4: the words are evaluated. -/
theorem sampleWordsDecode : Obligations.SampleWordsDecode := by
  unfold Obligations.SampleWordsDecode
  decide

end Sys2Proof.Machine
end

section
/-! PROOFS. Every step keeps the invariants of R35 and of the representation (R36, entry 1), which hold after reset. -/

namespace Sys2Proof.Machine

/-! ## The invariants of R35 -/

theorem legalStatus_faultCode (f : FcuFault) : legalStatus (faultCode f) = true := by
  cases f <;> rfl

theorem legalStatus_resultCode (r : Result) : legalStatus (resultCode r) = true := by
  cases r <;> rfl

/-- Settles O14: every length and flag is zero. -/
theorem invAtReset : Obligations.InvAtReset where
  txLen := by decide
  rxEven := by decide
  rxBound := Nat.zero_le _
  validLen := fun h => nomatch h
  invalidLen := fun _ => rfl
  status := by decide

section
variable {s : State} (hs : Inv s)
include hs

theorem inv_accept (left raw : List Byte) (later : List HostStep) : Inv (accept left raw later s) :=
  ⟨hs.txLen, hs.rxEven, hs.rxBound, hs.validLen, hs.invalidLen, hs.status⟩

theorem inv_raise (f : FcuFault) : Inv (raise f s) :=
  ⟨hs.txLen, hs.rxEven, hs.rxBound, hs.validLen, hs.invalidLen, legalStatus_faultCode f⟩

theorem inv_finish (r : Result) (v : Option Long) (k : Option (BitVec 2)) : Inv (finish r v k s) :=
  ⟨hs.txLen, hs.rxEven, hs.rxBound, hs.validLen, hs.invalidLen, legalStatus_resultCode r⟩

/-- A frame of one of the six lengths gives `TX_LEN` a length of (a). -/
theorem inv_loadFrame {frame : List Byte} (hlen : frame.length ∈ [2, 5, 8, 11, 13, 20]) : Inv (loadFrame frame s) := by
  refine ⟨?_, hs.rxEven, hs.rxBound, hs.validLen, hs.invalidLen, legalStatus_resultCode .ok⟩
  have hfit : (loadFrame frame s).txLen.toNat = frame.length := by
    simp only [List.mem_cons, List.not_mem_nil, or_false] at hlen
    rw [loadFrame_txLen, BitVec.toNat_ofNat, Nat.mod_eq_of_lt (by omega)]
  exact hfit ▸ List.mem_cons_of_mem _ hlen

theorem inv_readError (r : Result) (c : Cursor) : Inv (readError r c s) :=
  ⟨hs.txLen, rfl, Nat.zero_le _, (nomatch ·), fun _ => rfl, legalStatus_resultCode r⟩

/-- `RX_MAX` is even, so the words of a READ of at most `RX_MAX` bytes fit even when the last one passes `n` (R138). -/
theorem inv_readOk {ws : List (Byte × Byte)} {n : Nat} (hne : ws ≠ []) (hn : n ≤ Config.rxMax)
    (hlen : 2 * ws.length < n + 2) : Inv (readOk (cursorStart.after ws) s) := by
  have hpos := List.length_pos_iff.mpr hne
  have hmax := rxMax_bounds
  have hrx : (readOk (cursorStart.after ws) s).rxLen.toNat = 2 * ws.length := by
    simp only [readOk_rxLen, Cursor.after, cursorStart_len, BitVec.toNat_ofNat]
    omega
  refine ⟨hs.txLen, ?_, ?_, fun _ => ?_, (nomatch ·), legalStatus_resultCode .ok⟩ <;> rw [hrx] <;> omega

theorem exec_keeps_inv {i : Instr} {t : State} (h : exec i s = .next t) : Inv t := by
  obtain ⟨f, rfl⟩ | ⟨v, k, rfl⟩ | ⟨frame, -, hlen, rfl⟩ | ⟨n, fl, -, hn, rfl⟩ := exec_cases h
  · exact inv_raise hs f
  · exact inv_finish hs .ok v k
  · exact inv_loadFrame hs hlen
  · obtain ⟨ws, -, -, hne, hlen, -, e⟩ | ⟨r, c, -, e⟩ := readEnd_cases n.toNat (stopFlag fl) s
    · exact e ▸ inv_readOk hs hne hn hlen
    · exact e ▸ inv_readError hs r c

end

/-- Settles O15: each thing a step can do keeps the invariants. -/
theorem stepKeepsInv : Obligations.StepKeepsInv := by
  intro s t hs h
  obtain ⟨-, rfl⟩ | ⟨later, -, rfl⟩ | ⟨_, raw, later, _, left, -, -, rfl⟩ | ⟨_, raw, later, _, left, -, -, hexec⟩ :=
    step_cases h
  · exact hs
  · obtain ⟨htx, heven, hbound, hvalid, hinvalid, hstatus⟩ := invAtReset
    exact ⟨htx, heven, hbound, hvalid, hinvalid, hstatus⟩
  · exact inv_raise (inv_accept hs left raw later) .illegalOp
  · exact exec_keeps_inv (inv_accept hs left raw later) hexec

/-! ## Which addresses a byte space lists -/

/-- The addresses listed are those that hold a specified byte. -/
theorem mem_addresses_iff {m : Memory} {a : Nat} : a ∈ Memory.addresses m ↔ (Memory.read m a).isSome := by
  induction m with
  | nil => simp [Memory.addresses]
  | cons c m ih =>
    have hcons : Memory.addresses (c :: m) = c.1 :: Memory.addresses m := rfl
    rw [hcons, List.mem_cons, Memory.read]
    split
    · simp [*]
    · rw [ih]
      simp [Ne.symm ‹_›]

theorem wfAbove_iff_isChain {lo : Nat} {m : Memory} :
    Memory.wfAbove lo m = true ↔ (lo :: Memory.addresses m).IsChain (· < ·) := by
  induction m generalizing lo with
  | nil => simp [Memory.wfAbove, Memory.addresses]
  | cons c m ih =>
    have hcons : Memory.addresses (c :: m) = c.1 :: Memory.addresses m := rfl
    rw [hcons, List.isChain_cons_cons, ← ih]
    simp [Memory.wfAbove]

/-- A byte space is in canonical form when its addresses rise strictly (entry 1). -/
theorem wf_iff_sortedLT {m : Memory} : Memory.wf m = true ↔ (Memory.addresses m).SortedLT := by
  rw [List.sortedLT_iff_isChain]
  cases m with
  | nil => simp [Memory.wf, Memory.addresses]
  | cons c m => exact wfAbove_iff_isChain

/-- A byte space lists exactly the addresses below a length when it is in canonical form and holds a specified byte at
those addresses alone. -/
theorem addresses_eq_range_iff {m : Memory} {n : Nat} :
    Memory.addresses m = List.range n ↔ Memory.wf m = true ∧ ∀ a, (Memory.read m a).isSome ↔ a < n := by
  simp only [wf_iff_sortedLT, ← mem_addresses_iff]
  constructor
  · intro h
    rw [h]
    exact ⟨List.sortedLT_range n, fun _ => List.mem_range⟩
  · rintro ⟨hsorted, hmem⟩
    exact hsorted.eq_of_mem_iff (List.sortedLT_range n) fun a => (hmem a).trans List.mem_range.symm

/-! ## The representation invariant -/

theorem BuffersExact.wf_txbuf {s : State} (hs : BuffersExact s) : Memory.wf s.txbuf = true :=
  (addresses_eq_range_iff.mp hs.tx).1

theorem BuffersExact.wf_rxbuf {s : State} (hs : BuffersExact s) : Memory.wf s.rxbuf = true :=
  (addresses_eq_range_iff.mp hs.rx).1

theorem buffersExact_reset : BuffersExact State.reset := ⟨rfl, rfl⟩

/-- Settles O16: after reset nothing is listed and both lengths are 0. -/
theorem buffersExactAtReset : Obligations.BuffersExactAtReset := ⟨buffersExact_reset, reset_wf⟩

/-- The bytes stored in an empty byte space from address 0. -/
theorem read_store_nil (bs : List Byte) (a : Nat) : Memory.read (Memory.store 0 bs []) a = bs[a]? := by
  rw [read_store, read_nil]
  by_cases ha : a < bs.length <;> simp [ha]

/-- A frame of at most 31 bytes leaves `TXBUF` with exactly its bytes (R118). -/
theorem buffersExact_loadFrame {s : State} (hs : BuffersExact s) {frame : List Byte} (hlen : frame.length < 32) :
    BuffersExact (loadFrame frame s) := by
  refine ⟨addresses_eq_range_iff.mpr ⟨?_, fun a => ?_⟩, hs.rx⟩
  · exact wf_forgetFrom _ (wf_store frame 0 hs.wf_txbuf)
  · rw [read_loadFrame, isSome_getElem?, loadFrame_txLen, BitVec.toNat_ofNat, Nat.mod_eq_of_lt hlen]

/-- A READ that ends Ok leaves `RXBUF` with exactly the bytes of its words (R134). -/
theorem buffersExact_readOk {s : State} (hs : BuffersExact s) {ws : List (Byte × Byte)} (hfit : 2 * ws.length < 256) :
    BuffersExact (readOk (cursorStart.after ws) s) := by
  have hrx : (readOk (cursorStart.after ws) s).rxLen.toNat = (dataBytes ws).length := by
    simp [Cursor.after, Nat.mod_eq_of_lt hfit]
  have hmem : (readOk (cursorStart.after ws) s).rxbuf = Memory.store 0 (dataBytes ws) [] := rfl
  refine ⟨hs.tx, addresses_eq_range_iff.mpr ⟨?_, fun a => ?_⟩⟩
  · exact wf_store (dataBytes ws) 0 rfl
  · rw [hmem, hrx, read_store_nil, isSome_getElem?]

theorem exec_keeps_buffersExact {i : Instr} {s t : State} (hs : BuffersExact s) (h : exec i s = .next t) :
    BuffersExact t := by
  obtain ⟨f, rfl⟩ | ⟨v, k, rfl⟩ | ⟨frame, -, hlen, rfl⟩ | ⟨n, fl, -, hn, rfl⟩ := exec_cases h
  · exact ⟨hs.tx, hs.rx⟩
  · exact ⟨hs.tx, hs.rx⟩
  · simp only [List.mem_cons, List.not_mem_nil, or_false] at hlen
    exact buffersExact_loadFrame hs (by omega)
  · obtain ⟨ws, -, -, -, hlen, -, e⟩ | ⟨r, c, -, e⟩ := readEnd_cases n.toNat (stopFlag fl) s
    · have hmax := rxMax_bounds
      exact e ▸ buffersExact_readOk hs (by omega)
    · exact e ▸ ⟨hs.tx, rfl⟩

theorem step_keeps_buffersExact {s t : State} (hs : BuffersExact s) (h : step s = .next t) : BuffersExact t := by
  obtain ⟨-, rfl⟩ | ⟨later, -, rfl⟩ | ⟨_, _, _, _, _, -, -, rfl⟩ | ⟨_, raw, later, _, left, -, -, hexec⟩ := step_cases h
  · exact hs
  · exact ⟨buffersExact_reset.tx, buffersExact_reset.rx⟩
  · exact ⟨hs.tx, hs.rx⟩
  · have haccept : BuffersExact (accept left raw later s) := ⟨hs.tx, hs.rx⟩
    exact exec_keeps_buffersExact haccept hexec

/-- Settles O17: each thing a step can do keeps the buffers exact, and exact buffers are in canonical form. -/
theorem stepKeepsBuffersExact : Obligations.StepKeepsBuffersExact := by
  intro s t hs h
  have ht := step_keeps_buffersExact hs h
  exact ⟨ht, ht.wf_txbuf, ht.wf_rxbuf⟩

/-- Settles O55: below `RX_LEN` exact buffers hold a specified byte, which is what a decode sees. -/
theorem decodedBytesAreStored : Obligations.DecodedBytesAreStored := by
  intro s a hs ha
  obtain ⟨b, hb⟩ := Option.isSome_iff_exists.mp (((addresses_eq_range_iff.mp hs.rx).2 a).mpr ha)
  exact ⟨b, hb, by rw [rxByte, hb, Option.getD_some]⟩

end Sys2Proof.Machine
end

section
/-! PROOFS. How operations and steps end, and what they leave alone (R22 to R25, R116, R175, R192, R203). -/

namespace Sys2Proof.Machine

/-! ## Termination and the run -/

/-- Every operation ends in a next state (R203). -/
theorem exec_terminates (i : Instr) (s : State) : ∃ t, exec i s = .next t := by
  cases i with
  | read n fl =>
    have hread : exec (.read n fl) s = execRead n fl s := rfl
    rw [hread, execRead]
    split_ifs <;> exact ⟨_, rfl⟩
  | crc8 | crcchk | reqlen => exact ⟨_, rfl⟩
  | buildNone | buildS16 | buildS32 | buildTcomp | buildTune | buildBlob => exact ⟨_, rfl⟩
  | decU16 | decI16 | decU32 | sdecU16 | sdecI16 | sdecU32 => exact ⟨_, rfl⟩

/-- With nothing pending the FCU waits (R192; entry 5). -/
theorem step_of_pending_nil {s : State} (hp : s.pending = []) : step s = .next s := by
  simp [step, hp]

/-- On an incomplete descriptor the model stops (U26; entry 6). -/
theorem step_of_incomplete {s : State} {d raw : List Byte} {later : List HostStep}
    (hp : s.pending = .op d raw :: later) (hd : decode d = .incomplete) : step s = .fault .descriptorIncomplete := by
  simp [step, hp, hd]

/-- Settles O10: a step waits, resets, raises IllegalOp or performs an operation, or its descriptor is incomplete. -/
theorem operationsTerminate : Obligations.OperationsTerminate := by
  refine ⟨exec_terminates, fun s => ?_⟩
  match hp : s.pending with
  | [] => exact .inl ⟨_, step_of_pending_nil hp⟩
  | .reset :: later => exact .inl ⟨_, step_of_pending_reset hp⟩
  | .op d raw :: later =>
    match hd : decode d with
    | .incomplete => exact .inr ⟨step_of_incomplete hp hd, d, raw, later, rfl, hd⟩
    | .reserved opc left => exact .inl ⟨raise .illegalOp (accept left raw later s), by simp [step, hp, hd]⟩
    | .instr i left => exact .inl (step_of_instr hp hd ▸ exec_terminates i (accept left raw later s))

/-- Settles O9: the FCU waits, or takes the next thing the host does off the run. -/
theorem runAdvancesByOneStep : Obligations.RunAdvancesByOneStep := by
  refine ⟨fun _ => step_of_pending_nil, fun s later hp => ?_, fun s opc ops raw later hcode hp => ?_⟩
  · exact ⟨_, step_of_pending_reset hp, rfl⟩
  · exact ⟨_, step_of_reserved hcode hp, presentRest_eq ops later⟩

/-! ## What an operation writes -/

/-- However a READ ends, it leaves the transmit side and the run alone (R22, R23). -/
theorem readEnd_keeps (n : Nat) (e : LoopEnd × Cursor) (s : State) :
    SameTransmit s (readEnd n e s) ∧ (readEnd n e s).pending = s.pending := by
  unfold readEnd
  split
  · exact ⟨⟨fun _ => rfl, rfl⟩, rfl⟩
  · exact ⟨⟨fun _ => rfl, rfl⟩, rfl⟩
  · split_ifs <;> exact ⟨⟨fun _ => rfl, rfl⟩, rfl⟩

/-- Settles O18: a fault and an answer write neither buffer, a frame is loaded by a BUILD alone, and a READ keeps the
transmit side. -/
theorem onlyBuildAndReadWriteBuffers : Obligations.OnlyBuildAndReadWriteBuffers := by
  intro i s t h
  obtain ⟨f, rfl⟩ | ⟨v, k, rfl⟩ | ⟨frame, hbuild, -, rfl⟩ | ⟨n, fl, rfl, -, rfl⟩ := exec_cases h
  · exact ⟨fun _ => ⟨fun _ => rfl, rfl⟩, fun _ => ⟨⟨fun _ => rfl, rfl, rfl⟩, rfl⟩, rfl⟩
  · exact ⟨fun _ => ⟨fun _ => rfl, rfl⟩, fun _ => ⟨⟨fun _ => rfl, rfl, rfl⟩, rfl⟩, rfl⟩
  · exact ⟨fun hnot => absurd hbuild (by simp [hnot]), fun _ => ⟨⟨fun _ => rfl, rfl, rfl⟩, rfl⟩, rfl⟩
  · obtain ⟨htx, hpending⟩ := readEnd_keeps n.toNat (readLoop n.toNat (stopFlag fl) s.raw cursorStart) s
    exact ⟨fun _ => htx, fun hnot => absurd rfl (hnot n fl), hpending⟩

/-- A BUILD loads a frame of one of the six lengths (R116). -/
theorem exec_of_isBuild {i : Instr} (hi : isBuild i = true) (s : State) :
    ∃ frame, frame.length ∈ [2, 5, 8, 11, 13, 20] ∧ exec i s = .next (loadFrame frame s) := by
  cases i with
  | buildNone | buildS16 | buildS32 | buildTcomp | buildTune =>
    exact ⟨_, by rw [length_encodeFields]; simp [scalarFields], rfl⟩
  | buildBlob => exact ⟨_, by simp [blobFrame], rfl⟩
  | crc8 | crcchk | reqlen | read | decU16 | decI16 | decU32 | sdecU16 | sdecI16 | sdecU32 => cases hi

/-- Settles O33: the frame's length is among the six, and above a frame nothing is listed. -/
theorem framesFitTheTransmitBuffer : Obligations.FramesFitTheTransmitBuffer := by
  intro i s t hi h
  obtain ⟨frame, hlen, hexec⟩ := exec_of_isBuild hi s
  obtain rfl := Host.Outcome.next.inj (hexec.symm.trans h)
  have hmax : frame.length ≤ Config.txMax := by
    simp only [List.mem_cons, List.not_mem_nil, or_false] at hlen
    rw [Config.txMax]
    omega
  refine ⟨?_, fun a ha => ?_⟩
  · rw [loadFrame_txLen, BitVec.toNat_ofNat, Nat.mod_eq_of_lt (hmax.trans_lt (by decide))]
    exact hlen
  · rw [read_loadFrame, List.getElem?_eq_none (hmax.trans ha)]

/-! ## Outcomes -/

theorem resultCode_mem (r : Result) : resultCode r ∈ [0#4, 1#4, 2#4, 3#4] := by
  cases r <;> decide

/-- A READ that passes its operand check ends in a result (R134). -/
theorem readEnd_status (n : Nat) (e : LoopEnd × Cursor) (s : State) :
    ∃ r, (readEnd n e s).status = resultCode r := by
  unfold readEnd
  split
  · exact ⟨.checksumMismatch, rfl⟩
  · exact ⟨.ok, rfl⟩
  · split_ifs
    · exact ⟨.noData, rfl⟩
    · exact ⟨.ok, rfl⟩
    · exact ⟨.lengthMismatch, rfl⟩

/-- A READ ends in a result or in a fault of its operand check (R175). -/
theorem exec_read_status_mem {n fl : Byte} {s t : State} (h : exec (.read n fl) s = .next t) :
    t.status ∈ [0#4, 1#4, 2#4, 3#4, 8#4, 9#4] := by
  have hread : execRead n fl s = .next t := h
  unfold execRead at hread
  split_ifs at hread <;> cases hread
  · simp [faultCode]
  · obtain ⟨r, hr⟩ := readEnd_status n.toNat (readLoop n.toNat (stopFlag fl) s.raw cursorStart) s
    exact hr ▸ List.mem_append_left [8#4, 9#4] (resultCode_mem r)
  · simp [faultCode]

/-- A decode ends Ok or in one of its two range faults (R175). -/
theorem decodeField_status_mem (width : Nat) (off : Byte) (value : State → Long) (k : Option (BitVec 2)) (s : State) :
    (decodeField width off value k s).status ∈ [0#4, 10#4, 11#4] := by
  obtain ⟨-, e⟩ | ⟨-, -, e⟩ | ⟨-, -, e⟩ := decodeField_cases width off value k s <;>
    simp [e, faultCode, resultCode]

/-- A scaled decode can also end in IllegalOp (R175). -/
theorem decodeScaled_status_mem (width : Nat) (off ks : Byte) (value : State → Long) (s : State) :
    (decodeScaled width off ks value s).status ∈ [0#4, 8#4, 10#4, 11#4] := by
  obtain ⟨-, e⟩ | ⟨-, e⟩ := decodeScaled_cases width off ks value s <;> rw [e]
  · simp [faultCode]
  · have hfield := decodeField_status_mem width off value (some (scaleSelector ks)) s
    simp only [List.mem_cons, List.not_mem_nil, or_false] at hfield ⊢
    tauto

/-- Settles O19: by what each operation's meaning ends with. -/
theorem outcomesByOperation : Obligations.OutcomesByOperation := by
  intro i s t h
  cases i with
  | read => exact exec_read_status_mem h
  | decU16 | decI16 | decU32 => exact Host.Outcome.next.inj h ▸ decodeField_status_mem _ _ _ _ s
  | sdecU16 | sdecI16 | sdecU32 => exact Host.Outcome.next.inj h ▸ decodeScaled_status_mem _ _ _ _ s
  | crc8 | crcchk | reqlen => exact Host.Outcome.next.inj h ▸ rfl
  | buildNone | buildS16 | buildS32 | buildTcomp | buildTune | buildBlob => exact Host.Outcome.next.inj h ▸ rfl

end Sys2Proof.Machine
end

section
/-! PROOFS. The checksum: its reference values, the bit-serial circuit, the polynomial remainder, and that it is a bijection
of each byte (R105 to R107). -/

namespace Sys2Proof.Machine

/-- Settles O20: the values are evaluated. -/
theorem checksumReferenceValues : Obligations.ChecksumReferenceValues := by
  unfold Obligations.ChecksumReferenceValues
  decide +kernel

/-! ## The bit-serial circuit

Clocking a message's bits into the register is shifting their exclusive or with it: after `k` clocks the shifted exclusive
or is the register, with the bits still to come exclusive-ored into its upper end. -/

/-- One clock takes the top bit of what is exclusive-ored into the register. -/
theorem crcShift_xor (reg x : Byte) : crcShift (reg ^^^ x) = serialClock reg x.msb ^^^ (x <<< 1) := by
  have hsplit : (reg ^^^ x) <<< 1 = reg <<< 1 ^^^ x <<< 1 := BitVec.shiftLeft_xor_distrib _ _ _
  rw [crcShift, serialClock, hsplit, BitVec.msb_xor]
  cases reg.msb <;> cases x.msb <;> simp <;> ac_rfl

theorem crcShifts_succ (k : Nat) (acc : Byte) : crcShifts (k + 1) acc = crcShift (crcShifts k acc) := by
  induction k generalizing acc with
  | zero => rfl
  | succ k ih => exact ih (crcShift acc)

/-- The register after `k` clocks of a byte's bits, most significant first, against `k` shifts. -/
theorem crcShifts_xor (k : Nat) (reg b : Byte) :
    crcShifts k (reg ^^^ b) = ((List.range k).map b.getMsbD).foldl serialClock reg ^^^ (b <<< k) := by
  induction k with
  | zero => simp [crcShifts]
  | succ k ih =>
    rw [crcShifts_succ, ih, crcShift_xor, BitVec.msb_shiftLeft, ← BitVec.shiftLeft_add, List.range_succ,
      List.map_append, List.foldl_append]
    rfl

/-- An input byte is eight clocks of its bits (R105 (b)). -/
theorem crcByte_eq_foldl (acc b : Byte) :
    crcByte acc b = ((List.range 8).map b.getMsbD).foldl serialClock acc := by
  have hout : b <<< 8 = 0#8 := BitVec.shiftLeft_eq_zero le_rfl
  rw [crcByte, crcShifts_xor, hout, BitVec.xor_zero]

/-- The bits of two bytes, most significant first, are those of the first and then those of the second. -/
theorem map_getMsbD_append (b0 b1 : Byte) :
    (List.range 16).map (fun k => (b0 ++ b1).getMsbD k) =
      (List.range 8).map b0.getMsbD ++ (List.range 8).map b1.getMsbD := by
  have hsplit : List.range 16 = List.range 8 ++ (List.range 8).map (8 + ·) :=
    List.range_add (n := 8) (m := 8)
  rw [hsplit, List.map_append, List.map_map]
  congr 1 <;> refine List.map_congr_left fun k hk => ?_
  · rw [BitVec.getMsbD_append, if_neg (by simpa using hk)]
  · rw [Function.comp_apply, BitVec.getMsbD_append, if_pos (Nat.le_add_right 8 k), Nat.add_sub_cancel_left]

/-- Settles O23: eight clocks for each of the two bytes. -/
theorem checksumIsBitSerial : Obligations.ChecksumIsBitSerial := by
  intro b0 b1
  rw [crc8, crcByte_eq_foldl, crcByte_eq_foldl, ← List.foldl_append, ← map_getMsbD_append]

/-! ## Bijections -/

/-- Undoes a bit iteration: 0x31 is odd, so the low bit tells which bit was shifted out. -/
def crcUnshift (acc : Byte) : Byte :=
  if acc.getLsbD 0 then ((acc ^^^ 0x31#8) >>> 1) ||| 0x80#8 else acc >>> 1

theorem crcUnshift_crcShift : Function.LeftInverse crcUnshift crcShift := by
  unfold Function.LeftInverse
  decide

theorem crcShift_injective : Function.Injective crcShift := crcUnshift_crcShift.injective

theorem crcShifts_injective (k : Nat) : Function.Injective (crcShifts k) := by
  induction k with
  | zero => exact fun _ _ h => h
  | succ k ih => exact ih.comp crcShift_injective

theorem crcByte_injective_left (b : Byte) : Function.Injective fun acc => crcByte acc b :=
  fun _ _ h => (BitVec.xor_left_inj _).mp (crcShifts_injective 8 h)

theorem crcByte_injective_right (acc : Byte) : Function.Injective (crcByte acc) :=
  fun _ _ h => (BitVec.xor_right_inj _).mp (crcShifts_injective 8 h)

theorem crc8_injective_right (b0 : Byte) : Function.Injective fun b1 => crc8 b0 b1 :=
  crcByte_injective_right _

theorem crc8_injective_left (b1 : Byte) : Function.Injective fun b0 => crc8 b0 b1 :=
  (crcByte_injective_left b1).comp (crcByte_injective_right _)

/-- Settles O25: an injective function of a byte to a byte is a bijection. -/
theorem checksumIsBijectiveInEachByte : Obligations.ChecksumIsBijectiveInEachByte :=
  ⟨fun b0 => Finite.injective_iff_bijective.mp (crc8_injective_right b0),
    fun b1 => Finite.injective_iff_bijective.mp (crc8_injective_left b1)⟩

/-! ## The words of checksum zero -/

/-- A word is its two bytes. -/
theorem hiByte_append_loByte (w : Word) : hiByte w ++ loByte w = w := append_beBytes16 w

theorem crc8Word_append (h l : Byte) : crc8Word (h ++ l) = crc8 h l := by
  rw [crc8Word, hiByte, loByte, BitVec.extractLsb'_append_eq_left, BitVec.extractLsb'_append_eq_right]

/-- Words of one checksum that share their first byte are equal. -/
theorem eq_of_crc8Word_eq {v w : Word} (hcrc : crc8Word v = crc8Word w) (hhi : hiByte v = hiByte w) : v = w := by
  have hlo : loByte v = loByte w := by
    apply crc8_injective_right (hiByte w)
    simpa only [crc8Word, hhi] using hcrc
  rw [← hiByte_append_loByte v, hhi, hlo, hiByte_append_loByte]

/-- Each first byte begins exactly one word of checksum zero. -/
theorem card_crc8Word_eq_zero :
    (Finset.univ.filter fun w : Fin 65536 => crc8Word (BitVec.ofFin w) = 0#8).card = 256 := by
  have hbytes : (Finset.univ : Finset Byte).card = 256 := FinEnum.card_eq_fintypeCard.symm
  rw [← hbytes]
  refine Finset.card_bij (fun w _ => hiByte (BitVec.ofFin w)) (fun _ _ => Finset.mem_univ _) ?_ ?_
  · intro v hv w hw hhi
    have hcrc := (Finset.mem_filter.mp hv).2.trans (Finset.mem_filter.mp hw).2.symm
    exact BitVec.ofFin.inj (eq_of_crc8Word_eq hcrc hhi)
  · intro h _
    obtain ⟨l, hl⟩ := (checksumIsBijectiveInEachByte.1 h).surjective 0#8
    refine ⟨(h ++ l).toFin, Finset.mem_filter.mpr ⟨Finset.mem_univ _, ?_⟩, ?_⟩
    · exact (crc8Word_append h l).trans hl
    · exact BitVec.extractLsb'_append_eq_left

/-- Settles O26: one word for each first byte, and with first byte 0 it is 0x00AC. -/
theorem wordsOfChecksumZero : Obligations.WordsOfChecksumZero := by
  have hleast : crc8Word 0x00AC#16 = 0#8 := by decide +kernel
  refine ⟨card_crc8Word_eq_zero, hleast, fun w hw => ?_⟩
  by_cases hhi : hiByte w = hiByte 0x00AC#16
  · exact BitVec.le_of_eq (eq_of_crc8Word_eq (hw.trans hleast.symm) hhi).symm
  · have hnum : w.toNat = (hiByte w).toNat * 256 + (loByte w).toNat := by
      rw [← toNat_append_byte, hiByte_append_loByte]
    have hpos : (hiByte w).toNat ≠ 0 := fun h => hhi (BitVec.eq_of_toNat_eq h)
    rw [BitVec.le_def, hnum, BitVec.toNat_ofNat]
    omega

/-! ## The polynomial remainder

Modulo the generator a bit iteration multiplies by `X` (R105 (a)). -/

section
open Polynomial

theorem bitPolynomial_xor {w : Nat} (u v : BitVec w) :
    bitPolynomial (u ^^^ v) = bitPolynomial u + bitPolynomial v := by
  rw [bitPolynomial, bitPolynomial, bitPolynomial, ← Finset.sum_add_distrib]
  refine Finset.sum_congr rfl fun i _ => ?_
  rw [BitVec.getLsbD_xor]
  cases u.getLsbD i <;> cases v.getLsbD i <;> simp [CharTwo.add_self_eq_zero]

/-- Appending `n` bits multiplies by `X ^ n` and adds their polynomial. -/
theorem bitPolynomial_append {m n : Nat} (u : BitVec m) (v : BitVec n) :
    bitPolynomial (u ++ v) = X ^ n * bitPolynomial u + bitPolynomial v := by
  have hsplit : ∀ f : Nat → Polynomial (ZMod 2),
      ∑ i ∈ Finset.range (m + n), f i = ∑ i ∈ Finset.range m, f (n + i) + ∑ i ∈ Finset.range n, f i := fun f => by
    rw [Nat.add_comm m n, Finset.sum_range_add, add_comm]
  rw [bitPolynomial, hsplit, bitPolynomial, bitPolynomial, Finset.mul_sum]
  congr 1 <;> refine Finset.sum_congr rfl fun i hi => ?_
  · simp [BitVec.getLsbD_append, pow_add]
  · simp [BitVec.getLsbD_append, Finset.mem_range.mp hi]

theorem degree_bitPolynomial_lt {w : Nat} (v : BitVec w) : (bitPolynomial v).degree < w := by
  refine mem_degreeLT.mp (Submodule.sum_mem _ fun i hi => mem_degreeLT.mpr ?_)
  have hi' : i < w := Finset.mem_range.mp hi
  split
  · rw [degree_X_pow]
    exact_mod_cast hi'
  · rw [degree_zero]
    exact WithBot.bot_lt_coe w

/-- A shift multiplies by `X` and drops the top bit. -/
theorem X_mul_bitPolynomial (a : Byte) :
    X * bitPolynomial a = bitPolynomial (a <<< 1) + if a.msb then X ^ 8 else 0 := by
  simp [bitPolynomial, Finset.sum_range_succ, BitVec.getLsbD_shiftLeft, BitVec.msb_eq_getLsbD_last, mul_add,
    ← pow_succ', ← sq]

/-- The generator of R105 (a). -/
noncomputable def crcGenerator : Polynomial (ZMod 2) := X ^ 8 + X ^ 5 + X ^ 4 + 1

theorem monic_crcGenerator : crcGenerator.Monic := by
  unfold crcGenerator
  monicity!

theorem degree_crcGenerator : crcGenerator.degree = 8 := by
  unfold crcGenerator
  compute_degree!

/-- A bit iteration subtracts the generator where the top bit is set. -/
theorem bitPolynomial_crcShift (a : Byte) :
    X * bitPolynomial a = bitPolynomial (crcShift a) + if a.msb then crcGenerator else 0 := by
  have htaps : bitPolynomial 0x31#8 + crcGenerator = X ^ 8 := by
    have hpoly : bitPolynomial 0x31#8 = 1 + X ^ 4 + X ^ 5 := by simp [bitPolynomial, Finset.sum_range_succ]
    have htwo : (2 : Polynomial (ZMod 2)) = 0 := CharTwo.two_eq_zero
    rw [hpoly, crcGenerator]
    linear_combination (1 + X ^ 4 + X ^ 5) * htwo
  rw [X_mul_bitPolynomial, crcShift]
  split
  · rw [bitPolynomial_xor, add_assoc, htaps]
  · rfl

/-- A polynomial over GF(2) modulo the generator. -/
noncomputable def crcResidue : Polynomial (ZMod 2) →+* AdjoinRoot crcGenerator := AdjoinRoot.mk crcGenerator

theorem crcResidue_crcShift (a : Byte) :
    crcResidue (bitPolynomial (crcShift a)) = crcResidue (X * bitPolynomial a) := by
  have hzero : crcResidue crcGenerator = 0 := AdjoinRoot.mk_self
  rw [bitPolynomial_crcShift, map_add]
  split <;> simp [hzero]

theorem crcResidue_crcShifts (k : Nat) (a : Byte) :
    crcResidue (bitPolynomial (crcShifts k a)) = crcResidue (X ^ k * bitPolynomial a) := by
  induction k with
  | zero => simp [crcShifts]
  | succ k ih => rw [crcShifts_succ, crcResidue_crcShift, map_mul, ih, ← map_mul, pow_succ', mul_assoc]

theorem crcResidue_crcByte (acc b : Byte) :
    crcResidue (bitPolynomial (crcByte acc b)) = crcResidue (X ^ 8 * (bitPolynomial acc + bitPolynomial b)) := by
  rw [crcByte, crcResidue_crcShifts, bitPolynomial_xor]

/-- The message `(b0 xor 0xFF) ∥ b1 ∥ 0x00` and the checksum are the same modulo the generator. -/
theorem crcResidue_crc8 (b0 b1 : Byte) :
    crcResidue (bitPolynomial ((b0 ^^^ 0xFF#8) ++ b1 ++ 0x00#8)) = crcResidue (bitPolynomial (crc8 b0 b1)) := by
  have hzero : bitPolynomial 0x00#8 = 0 := by simp [bitPolynomial]
  rw [crc8, crcResidue_crcByte, bitPolynomial_append, bitPolynomial_append, bitPolynomial_xor, hzero]
  simp only [map_mul, map_add, map_zero, crcResidue_crcByte]
  ring

/-- Settles O24: the checksum is what the message leaves modulo the generator, and of lower degree. -/
theorem checksumIsPolynomialRemainder : Obligations.ChecksumIsPolynomialRemainder := by
  intro b0 b1
  have hdvd := AdjoinRoot.mk_eq_mk.mp (crcResidue_crc8 b0 b1)
  have hlow := (modByMonic_eq_self_iff monic_crcGenerator).mpr
    ((degree_bitPolynomial_lt (crc8 b0 b1)).trans_eq degree_crcGenerator.symm)
  exact (modByMonic_eq_of_dvd_sub monic_crcGenerator hdvd).trans hlow

end

end Sys2Proof.Machine
end

section
/-! PROOFS. How a READ ends on each raw list (R134 to R141), the decodes after a failed READ (R136), and the round trip of a
built frame (R120). -/

namespace Sys2Proof.Machine

/-! ## The end of the loop -/

/-- What the loop has collected after these words. -/
theorem len_after_cursorStart (ws : List (Byte × Byte)) : (cursorStart.after ws).len = 2 * ws.length := by
  simp [Cursor.after]

theorem rp_after_cursorStart (ws : List (Byte × Byte)) : (cursorStart.after ws).rp = 3 * ws.length := by
  simp [Cursor.after]

/-- Keeping one more word. -/
theorem keep_after (ws : List (Byte × Byte)) (d0 d1 : Byte) (c : Cursor) :
    (c.after ws).keep d0 d1 = c.after (ws ++ [(d0, d1)]) := by
  induction ws generalizing c with
  | nil => rw [List.nil_append, after_cons, after_nil, after_nil]
  | cons w ws ih => rw [List.cons_append, after_cons, after_cons, ih]

/-- A loop that ends with the bytes asked for is Ok (R134). -/
theorem readEnd_ended_of_met {n : Nat} {ws : List (Byte × Byte)} (hne : ws ≠ []) (hn : 2 * ws.length = n) (s : State) :
    readEnd n (.ended, cursorStart.after ws) s = readOk (cursorStart.after ws) s := by
  have hpos := List.length_pos_iff.mpr hne
  rw [readEnd, len_after_cursorStart, if_neg (by omega), if_pos hn]

/-- A loop that ends with some other number of bytes is LengthMismatch (R138, R139). -/
theorem readEnd_ended_of_not_met {n : Nat} {ws : List (Byte × Byte)} (hne : ws ≠ []) (hn : 2 * ws.length ≠ n)
    (s : State) : readEnd n (.ended, cursorStart.after ws) s = readError .lengthMismatch (cursorStart.after ws) s := by
  have hpos := List.length_pos_iff.mpr hne
  rw [readEnd, len_after_cursorStart, if_neg (by omega), if_neg hn]

/-- The loop stops at a zero word under the stop flag, and keeps it (R140). -/
theorem readLoop_zero_word {n : Nat} {c : Cursor} (hlen : c.len < n) (rest : List Byte) :
    readLoop n true ([0#8, 0#8, crc8 0#8 0#8] ++ rest) c = (.zeroStop, c.keep 0#8 0#8) := by
  simp [readLoop, hlen]

/-- The loop stops at a wrong checksum, before it looks for a zero word (R137). -/
theorem readLoop_bad_group {n : Nat} {c : Cursor} (hlen : c.len < n) (z : Bool) {d0 d1 chk : Byte}
    (hbad : crc8 d0 d1 ≠ chk) (rest : List Byte) :
    readLoop n z ([d0, d1, chk] ++ rest) c = (.mismatch, { c with rp := c.rp + 3 }) := by
  simp [readLoop, hlen, hbad]

/-! ## READ on well-formed groups and what follows them -/

section
variable {n fl : Byte} {ws : List (Byte × Byte)} {tail : List Byte} {s : State}

/-- `RX_LEN` can count the bytes of the words that a READ keeps. -/
theorem length_lt_of_readOperandsOk (hok : ReadOperandsOk n fl) (hlen : 2 * ws.length < n.toNat + 2) :
    2 * ws.length < 256 := by
  obtain ⟨-, hn⟩ := hok
  have hmax := rxMax_bounds
  omega

/-- A READ passes over the well-formed groups that it reaches and that do not stop it. -/
theorem exec_read_goodStream (hok : ReadOperandsOk n fl) (hraw : s.raw = goodStream ws ++ tail)
    (hlen : 2 * ws.length < n.toNat + 2) (hz : fl.getLsbD 0 = true → NoZeroWord ws) :
    exec (.read n fl) s = .next (readEnd n.toNat (readLoop n.toNat (stopFlag fl) tail (cursorStart.after ws)) s) := by
  rw [exec_read hok, hraw, readLoop_goodStream (z := stopFlag fl) ws (by rwa [cursorStart_len, Nat.zero_add]) hz]

/-- A READ consumes the groups it keeps and leaves the rest (entry 12). -/
theorem drop_goodStream (hraw : s.raw = goodStream ws ++ tail) : s.raw.drop (3 * ws.length) = tail := by
  rw [hraw, ← goodStream_length ws, List.drop_left]

/-- A READ that finds all its bytes, none of the words stopping it. -/
theorem exec_read_of_met (hok : ReadOperandsOk n fl) (hraw : s.raw = goodStream ws ++ tail) (hne : ws ≠ [])
    (hn : 2 * ws.length = n.toNat) (hz : fl.getLsbD 0 = true → NoZeroWord ws) :
    exec (.read n fl) s = .next (readOk (cursorStart.after ws) s) := by
  rw [exec_read_goodStream hok hraw (by omega) hz, readLoop_full tail (by rw [len_after_cursorStart, hn]),
    readEnd_ended_of_met hne hn]

/-- A READ whose loop ends after these words with another number of bytes than was asked for. -/
theorem lengthMismatch_of_ended (hok : ReadOperandsOk n fl) (hraw : s.raw = goodStream ws ++ tail)
    (hlen : 2 * ws.length < n.toNat + 2) (hz : fl.getLsbD 0 = true → NoZeroWord ws) (hne : ws ≠ [])
    (hn : 2 * ws.length ≠ n.toNat)
    (hend : readLoop n.toNat (stopFlag fl) tail (cursorStart.after ws) = (.ended, cursorStart.after ws)) :
    ∃ t, exec (.read n fl) s = .next t ∧ ReadFailed 2#4 (3 * ws.length) s t := by
  refine ⟨_, exec_read_goodStream hok hraw hlen hz, ?_⟩
  rw [hend, readEnd_ended_of_not_met hne hn, ← rp_after_cursorStart]
  exact readFailed_readError .lengthMismatch _ s

end

/-- Settles O36: the loop ends with the bytes asked for. -/
theorem readCollectsTheRequestedBytes : Obligations.ReadCollectsTheRequestedBytes := by
  intro n fl ws rest s hok hraw hne hn hz
  have hfit := length_lt_of_readOperandsOk hok (ws := ws) (by omega)
  exact ⟨_, exec_read_of_met hok hraw hne hn hz, readSucceeded_readOk hfit s,
    (congrArg s.raw.drop (rp_after_cursorStart ws)).trans (drop_goodStream hraw)⟩

/-- Settles O37: the loop stops at the zero word, having kept it as one more well-formed group. -/
theorem readStopsAtTheZeroWord : Obligations.ReadStopsAtTheZeroWord := by
  intro n fl ws rest s hok hfl hraw hz hlen
  have hzero : goodStream (ws ++ [(0#8, 0#8)]) = goodStream ws ++ [0#8, 0#8, crc8 0#8 0#8] := List.flatMap_append
  have hdata : dataBytes (ws ++ [(0#8, 0#8)]) = dataBytes ws ++ [0#8, 0#8] := List.flatMap_append
  have hcount : 3 * (ws ++ [(0#8, 0#8)]).length = 3 * ws.length + 3 := by simp; omega
  have hfit : 2 * (ws ++ [(0#8, 0#8)]).length < 256 :=
    length_lt_of_readOperandsOk hok (by simp; omega)
  have hexec : exec (.read n fl) s = .next (readOk (cursorStart.after (ws ++ [(0#8, 0#8)])) s) := by
    rw [exec_read_goodStream hok (by rw [hraw, List.append_assoc]) (by omega) (fun _ => hz), stopFlag, hfl,
      readLoop_zero_word (by rwa [len_after_cursorStart]), keep_after, readEnd]
  refine ⟨_, hexec, ?_, ?_⟩
  · rw [← hdata, ← hcount]
    exact readSucceeded_readOk hfit s
  · rw [readOk_raw, rp_after_cursorStart]
    exact drop_goodStream (by rw [hraw, hzero])

/-- Settles O38: the loop stops at the bad group. -/
theorem readFailsOnABadChecksum : Obligations.ReadFailsOnABadChecksum := by
  intro n fl ws d0 d1 chk rest s hok hraw hbad hlen hz
  refine ⟨_, exec_read_goodStream hok (by rw [hraw, List.append_assoc]) (by omega) hz, ?_⟩
  rw [readLoop_bad_group (by rwa [len_after_cursorStart]) _ hbad, readEnd, ← rp_after_cursorStart]
  exact readFailed_readError .checksumMismatch _ s

/-- Settles O40: the loop ends because fewer than three raw bytes are left. -/
theorem readOfTooFewBytesIsLengthMismatch : Obligations.ReadOfTooFewBytesIsLengthMismatch := by
  intro n fl ws leftover s hok hraw hshort hne hlen hz
  exact lengthMismatch_of_ended hok hraw (by omega) hz hne hlen.ne (readLoop_short hshort)

/-- Settles O41: the loop ends because `n` + 1 bytes are collected. -/
theorem readOfAnOddLengthIsLengthMismatch : Obligations.ReadOfAnOddLengthIsLengthMismatch := by
  intro n fl ws rest s hok hraw hn hz
  have hne : ws ≠ [] := by
    rintro rfl
    simp at hn
  exact lengthMismatch_of_ended hok hraw (by omega) hz hne (by omega)
    (readLoop_full rest (by rw [len_after_cursorStart]; omega))

/-! ## Single-bit errors -/

/-- A flipped bit changes a byte. -/
theorem xor_bit_ne {j : Nat} (hj : j < 8) (b : Byte) : b ^^^ (1#8 <<< j) ≠ b := by
  intro h
  have hbit := congrArg (fun v : Byte => v.getLsbD j) h
  simp [hj] at hbit

/-- One flipped bit in a well-formed group makes its checksum wrong: the checksum is injective in each byte. -/
theorem crc8_ne_of_flipped_bit {d0 d1 : Byte} {j : Nat} {group : List Byte} (hj : j < 8)
    (hgroup : group ∈ [[d0, d1, crc8 d0 d1 ^^^ (1#8 <<< j)], [d0 ^^^ (1#8 <<< j), d1, crc8 d0 d1],
      [d0, d1 ^^^ (1#8 <<< j), crc8 d0 d1]]) :
    ∃ e0 e1 chk, group = [e0, e1, chk] ∧ crc8 e0 e1 ≠ chk := by
  simp only [List.mem_cons, List.not_mem_nil, or_false] at hgroup
  obtain rfl | rfl | rfl := hgroup
  · exact ⟨_, _, _, rfl, (xor_bit_ne hj _).symm⟩
  · exact ⟨_, _, _, rfl, fun h => xor_bit_ne hj d0 (crc8_injective_left d1 h)⟩
  · exact ⟨_, _, _, rfl, fun h => xor_bit_ne hj d1 (crc8_injective_right d0 h)⟩

/-- Settles O43: the flipped group is one with a wrong checksum. -/
theorem readDetectsEverySingleBitError : Obligations.ReadDetectsEverySingleBitError := by
  intro n fl ws d0 d1 j group rest s hok hj hgroup hraw hlen hz
  obtain ⟨e0, e1, chk, rfl, hbad⟩ := crc8_ne_of_flipped_bit hj hgroup
  exact readFailsOnABadChecksum n fl ws e0 e1 chk rest s hok hraw hbad hlen hz

/-! ## The receive side before and after a READ -/

/-- A READ that ended in an error result left no valid buffer (R136). -/
theorem rxValid_of_failed_read {n fl : Byte} {s t : State} (h : exec (.read n fl) s = .next t)
    (hstatus : t.status ∈ [1#4, 2#4, 3#4]) : t.rxValid = false := by
  have hread : execRead n fl s = .next t := h
  unfold execRead at hread
  split_ifs at hread <;> cases hread
  · simp [faultCode] at hstatus
  · obtain ⟨ws, -, -, -, -, -, e⟩ | ⟨r, c, -, e⟩ := readEnd_cases n.toNat (stopFlag fl) s
    · simp [e] at hstatus
    · rw [e, readError_rxValid]
  · simp [faultCode] at hstatus

/-- Settles O44: no valid buffer is the first thing a well-formed decode checks. -/
theorem decodesFaultAfterAFailedRead : Obligations.DecodesFaultAfterAFailedRead := by
  intro n fl s t i h hstatus hdec hwf
  obtain ⟨⟨width, off⟩, hi⟩ := Option.ne_none_iff_exists'.mp hdec
  exact (rangeFaults_of_wf hi t hwf).1 (rxValid_of_failed_read h hstatus)

/-- However a READ ends, it writes the whole receive side (R134, R136). -/
theorem readEnd_withReceive (n : Nat) (e : LoopEnd × Cursor) (s : State) (m : Memory) (len : BitVec 8) (valid : Bool) :
    readEnd n e { s with rxbuf := m, rxLen := len, rxValid := valid } = readEnd n e s := by
  unfold readEnd
  split
  · rfl
  · rfl
  · split_ifs <;> rfl

/-- Settles O45: the loop starts from nothing, and its end replaces the receive side. -/
theorem readForgetsThePreviousBuffer : Obligations.ReadForgetsThePreviousBuffer := by
  intro n fl s m len valid hok
  rw [exec_read hok, exec_read hok, readEnd_withReceive]

/-- Settles O47: two words, and then the zero word that stops the READ. -/
theorem zeroTerminationExample : Obligations.ZeroTerminationExample := by
  intro s hraw
  have hok : ReadOperandsOk 16#8 1#8 := ⟨by decide, rxMax_bounds.1⟩
  obtain ⟨t, hexec, hread, -⟩ := readStopsAtTheZeroWord 16#8 1#8 [(0x41#8, 0x42#8), (0x43#8, 0x44#8)]
    (List.replicate 5 [0x00#8, 0x00#8, 0x81#8]).flatten s hok rfl (hraw.trans (by decide +kernel))
    (by simp [NoZeroWord]) (by decide)
  exact ⟨t, hexec, hread⟩

/-! ## The round trip of a built frame -/

/-- The two data bytes of a word in its list. -/
theorem getElem?_dataBytes (ws : List (Byte × Byte)) (k : Nat) :
    (dataBytes ws)[2 * k]? = ws[k]?.map Prod.fst ∧ (dataBytes ws)[2 * k + 1]? = ws[k]?.map Prod.snd := by
  induction ws generalizing k with
  | nil => simp [dataBytes]
  | cons w ws ih =>
    have hcons : dataBytes (w :: ws) = w.1 :: w.2 :: dataBytes ws := rfl
    cases k with
    | zero => simp [hcons]
    | succ k => simpa [hcons, Nat.mul_add] using ih k

/-- A decode sees the words that a byte space holds. -/
theorem memRead2_of_holds {s : State} {ws : List (Byte × Byte)} (h : Holds s.rxbuf (dataBytes ws)) {k : Nat}
    {w : Byte × Byte} (hw : ws[k]? = some w) : memRead2 s (2 * k) = w.1 ++ w.2 := by
  have hk : k < ws.length := (List.getElem?_eq_some_iff.mp hw).1
  obtain ⟨hfst, hsnd⟩ := getElem?_dataBytes ws k
  have h0 := h (2 * k) (by rw [dataBytes_length]; omega)
  have h1 := h (2 * k + 1) (by rw [dataBytes_length]; omega)
  simp [memRead2, rxByte, h0, h1, hfst, hsnd, hw]

/-- The payload of a frame of at most six fields reads back as its fields (R120). -/
theorem read_payload {cmd : Word} {fields : List Word} (hne : fields ≠ []) (hsix : fields.length ≤ 6) {t : State}
    (htx : t.txOut = encodeFields cmd fields) :
    ∃ u, exec (.read (BitVec.ofNat 8 (2 * fields.length)) 0#8) { t with raw := t.txOut.drop 2 } = .next u ∧
      u.status = 0#4 ∧ u.rxValid = true ∧ u.rxLen.toNat = 2 * fields.length ∧ u.raw = [] ∧
      ∀ k, k < fields.length → some (memRead2 u (2 * k)) = fields[k]? := by
  have hn : (BitVec.ofNat 8 (2 * fields.length)).toNat = 2 * fields.length := by
    rw [BitVec.toNat_ofNat]
    omega
  have hok : ReadOperandsOk (BitVec.ofNat 8 (2 * fields.length)) 0#8 := by
    have hmax := rxMax_bounds
    exact ⟨by decide, by omega⟩
  have hraw : t.txOut.drop 2 = goodStream (fields.map fieldWord) ++ [] := by
    rw [htx, encodeFields_eq_goodStream, List.append_nil]
    rfl
  obtain ⟨u, hexec, ⟨hstatus, hholds, hlen, hvalid, -⟩, hrest⟩ :=
    readCollectsTheRequestedBytes _ 0#8 (fields.map fieldWord) [] { t with raw := t.txOut.drop 2 } hok hraw
      (by simpa using hne) (by rw [hn, List.length_map]) (by simp)
  refine ⟨u, hexec, hstatus, hvalid, by simpa using hlen, hrest, fun k hk => ?_⟩
  have hword : (fields.map fieldWord)[k]? = some (fieldWord fields[k]) := by simp [hk]
  rw [memRead2_of_holds hholds hword, List.getElem?_eq_getElem hk]
  exact congrArg some (hiByte_append_loByte _)

/-- Settles O46: each of the four forms loads a frame of one to six fields. -/
theorem builtFieldsReadBack : Obligations.BuiltFieldsReadBack := by
  rintro i fields s t ⟨cmd, hform⟩ h
  have hload : fields ≠ [] ∧ fields.length ≤ 6 ∧ t.txOut = encodeFields cmd fields := by
    obtain ⟨v, rfl, rfl⟩ | ⟨v, rfl, rfl⟩ | ⟨f0, f1, f2, rfl, rfl⟩ | ⟨f0, f1, f2, f3, f4, f5, rfl, rfl⟩ := hform <;>
      exact ⟨by simp, by simp, Host.Outcome.next.inj h ▸ rfl⟩
  obtain ⟨hne, hsix, htx⟩ := hload
  exact read_payload hne hsix htx

end Sys2Proof.Machine
end

section
/-! PROOFS. The typed decodes against each other: repeated, wide against narrow, signed against unsigned, and scaled
(R153 to R156, R158, R163). -/

namespace Sys2Proof.Machine

/-! ## Decodes change no buffer and repeat alike -/

theorem untouched_raise (f : FcuFault) (s : State) : Untouched s (raise f s) := by
  obtain ⟨-, -, -, -, h⟩ := faultTaken_raise f s
  exact h

theorem untouched_finish (v : Option Long) (k : Option (BitVec 2)) (s : State) : Untouched s (finish .ok v k s) := by
  obtain ⟨-, -, h⟩ := answered_finish_ok v k s
  exact h

theorem raise_raise (f : FcuFault) (s : State) : raise f (raise f s) = raise f s := rfl

theorem finish_finish (r : Result) (v : Option Long) (k : Option (BitVec 2)) (s : State) :
    finish r v k (finish r v k s) = finish r v k s := rfl

/-- A decode touches no buffer, and does the same again if its value does not depend on the previous result. -/
theorem decodeField_pure {value : State → Long} {s : State} {k : Option (BitVec 2)}
    (hvalue : ∀ v, value (finish .ok v k s) = value s) (width : Nat) (off : Byte) :
    Untouched s (decodeField width off value k s) ∧
      decodeField width off value k (decodeField width off value k s) = decodeField width off value k s := by
  obtain ⟨hv, e⟩ | ⟨hv, hr, e⟩ | ⟨hv, hr, e⟩ := decodeField_cases width off value k s <;> rw [e]
  · exact ⟨untouched_raise _ s, decodeField_of_invalid (s := raise .bufferInvalid s) hv value k⟩
  · exact ⟨untouched_raise _ s, decodeField_of_out_of_range (s := raise (.offsetOutOfRange off) s) hv hr value k⟩
  · refine ⟨untouched_finish _ _ s, ?_⟩
    rw [decodeField_of_in_range (s := finish .ok (some (value s)) k s) hv hr, hvalue, finish_finish]

/-- So does a scaled decode. -/
theorem decodeScaled_pure {value : State → Long} {s : State} {ks : Byte}
    (hvalue : ∀ v, value (finish .ok v (some (scaleSelector ks)) s) = value s) (width : Nat) (off : Byte) :
    Untouched s (decodeScaled width off ks value s) ∧
      decodeScaled width off ks value (decodeScaled width off ks value s) = decodeScaled width off ks value s := by
  unfold decodeScaled
  split
  · exact ⟨untouched_raise _ s, raise_raise _ s⟩
  · exact decodeField_pure hvalue width off

/-- Settles O56: what a decode delivers depends on the receive side alone. -/
theorem decodesArePure : Obligations.DecodesArePure := by
  intro i s t hi h
  cases i with
  | decU16 | decI16 | decU32 =>
    obtain rfl := Host.Outcome.next.inj h
    exact (decodeField_pure (fun _ => rfl) _ _).imp_right (congrArg Host.Outcome.next)
  | sdecU16 | sdecI16 | sdecU32 =>
    obtain rfl := Host.Outcome.next.inj h
    exact (decodeScaled_pure (fun _ => rfl) _ _).imp_right (congrArg Host.Outcome.next)
  | crc8 | crcchk | buildNone | buildS16 | buildS32 | buildTcomp | buildTune | buildBlob | reqlen | read =>
    exact absurd rfl hi

/-! ## Wide and narrow, signed and unsigned -/

/-- Four bytes are two words, the first the more significant (R153). -/
theorem toNat_memRead4_eq (s : State) (a : Nat) :
    (memRead4 s a).toNat = 65536 * (memRead2 s a).toNat + (memRead2 s (a + 2)).toNat := by
  rw [toNat_memRead4, toNat_memRead2, toNat_memRead2, Nat.add_assoc a 2 1]
  omega

/-- Settles O57: in range the offset of the second word does not wrap. -/
theorem wideDecodeIsTwoNarrowOnes : Obligations.WideDecodeIsTwoNarrowOnes := by
  intro off s hv hr
  have hoff : (off + 2#8).toNat = off.toNat + 2 := by
    have hlen := s.rxLen.isLt
    rw [BitVec.toNat_add, BitVec.toNat_ofNat]
    omega
  have hlo := exec_decU16_of_in_range (off := off + 2#8) hv (by omega)
  rw [hoff] at hlo
  refine ⟨_, _, _, _, _, _, exec_decU32_of_in_range hv hr, rfl, exec_decU16_of_in_range hv (by omega), rfl, hlo, rfl,
    ?_⟩
  rw [toNat_zext32, toNat_zext32, toNat_memRead4_eq]

/-- Bit 7 of a byte. -/
theorem getLsbD_seven (b : Byte) : b.getLsbD 7 = decide (128 ≤ b.toNat) :=
  (BitVec.msb_eq_getLsbD_last b).symm.trans (BitVec.msb_eq_decide b)

/-- Settles O58: the sign of the word is bit 7 of its first byte. -/
theorem signedDecodeOfUnsigned : Obligations.SignedDecodeOfUnsigned := by
  intro off s hv hr
  refine ⟨_, _, _, _, exec_decI16_of_in_range hv hr, rfl, exec_decU16_of_in_range hv hr, rfl, ?_⟩
  have hlow := (rxByte s (off.toNat + 1)).isLt
  rw [toInt_sext32, toNat_zext32, toNat_memRead2, getLsbD_seven]
  by_cases hsign : 128 ≤ (rxByte s off.toNat).toNat
  · rw [if_neg (by omega)]
    simp [hsign]
  · rw [if_pos (by omega)]
    simp [hsign]

/-! ## Scaling -/

theorem scaleConstant_ne_zero (k : BitVec 2) : (scaleConstant k : ℚ) ≠ 0 := by
  revert k
  simp only [ne_eq, Nat.cast_eq_zero]
  decide

/-- Settles O59: the four constants are evaluated, and none of them is 0. -/
theorem scalingIsExact : Obligations.ScalingIsExact :=
  ⟨by decide, fun _ k => ⟨mul_div_cancel₀ _ (scaleConstant_ne_zero k), mul_div_cancel₀ _ (scaleConstant_ne_zero k)⟩⟩

end Sys2Proof.Machine
end
